-- ==== Sys2Proof/Word.lean ====
section
/-! DEFINITION. The word types of the machine (spec/00_scope.md R6, R10) and nothing else. -/

namespace Sys2Proof

/-- An 8-bit value: a general register, a store byte, a timer, a sprite row (R6). -/
abbrev Byte := BitVec 8

/-- A 16-bit value: the pointer register, the program counter, a stack entry, an opcode (R6). -/
abbrev Word := BitVec 16

/-- A general register's index, 0 to 15 (R6, R20). -/
abbrev RegIdx := Fin 16

/-- Index of the flag register `VF` (R6 `FLAG`, R21). -/
abbrev VF : RegIdx := 15

end Sys2Proof
end

