-- ==== Sys2Proof/Syntax.lean ====
section
/-! DEFINITION. The instructions: one constructor per row of spec/opcode_table.json (spec/30_encoding.md R74, R84). -/

namespace Sys2Proof

/-- The decoder's closed result type (R74). `Math(x, y, op)` stands as one constructor per
sub-operation, because the opcode table gives each a row. The table's three `Undefined(raw)` rows, for
the categories 0x0, 0xE and 0xF, stand as three constructors that carry the same raw word
(notes/assumptions/12.md). -/
inductive Instr where
  /-- `00E0` ClearScreen -/
  | clearScreen
  /-- `00EE` Return -/
  | ret
  /-- `1NNN` Goto -/
  | goto (nnn : BitVec 12)
  /-- `2NNN` Call -/
  | call (nnn : BitVec 12)
  /-- `3XNN` SkipIfEqualConst -/
  | skipIfEqualConst (x : RegIdx) (nn : Byte)
  /-- `4XNN` SkipIfNotEqualConst -/
  | skipIfNotEqualConst (x : RegIdx) (nn : Byte)
  /-- `5XYn` SkipIfEqualReg -/
  | skipIfEqualReg (x y : RegIdx)
  /-- `6XNN` SetConst -/
  | setConst (x : RegIdx) (nn : Byte)
  /-- `7XNN` AddConst -/
  | addConst (x : RegIdx) (nn : Byte)
  /-- `8XY0` Math(x, y, Assign) -/
  | mathAssign (x y : RegIdx)
  /-- `8XY1` Math(x, y, BitwiseOr) -/
  | mathOr (x y : RegIdx)
  /-- `8XY2` Math(x, y, BitwiseAnd) -/
  | mathAnd (x y : RegIdx)
  /-- `8XY3` Math(x, y, BitwiseXor) -/
  | mathXor (x y : RegIdx)
  /-- `8XY4` Math(x, y, Add) -/
  | mathAdd (x y : RegIdx)
  /-- `8XY5` Math(x, y, Subtract) -/
  | mathSubtract (x y : RegIdx)
  /-- `8XY6` Math(x, y, ShiftRight) -/
  | mathShiftRight (x y : RegIdx)
  /-- `8XY7` Math(x, y, Difference) -/
  | mathDifference (x y : RegIdx)
  /-- `8XYE` Math(x, y, ShiftLeft) -/
  | mathShiftLeft (x y : RegIdx)
  /-- `9XYn` SkipIfNotEqualReg -/
  | skipIfNotEqualReg (x y : RegIdx)
  /-- `ANNN` SetPointer -/
  | setPointer (nnn : BitVec 12)
  /-- `BNNN` RelativeJump -/
  | relativeJump (nnn : BitVec 12)
  /-- `CXNN` Random -/
  | random (x : RegIdx) (nn : Byte)
  /-- `DXYN` Draw: `n` is the height, 0 to 15 rows -/
  | draw (x y : RegIdx) (n : Fin 16)
  /-- `EX9E` KeyPressed -/
  | keyPressed (x : RegIdx)
  /-- `EXA1` KeyNotPressed -/
  | keyNotPressed (x : RegIdx)
  /-- `FX07` GetDelay -/
  | getDelay (x : RegIdx)
  /-- `FX0A` WaitKeyPress -/
  | waitKeyPress (x : RegIdx)
  /-- `FX15` SetDelay -/
  | setDelay (x : RegIdx)
  /-- `FX18` SetSound -/
  | setSound (x : RegIdx)
  /-- `FX1E` AddPointer -/
  | addPointer (x : RegIdx)
  /-- `FX29` FontGlyph -/
  | fontGlyph (x : RegIdx)
  /-- `FX33` SplitNumber -/
  | splitNumber (x : RegIdx)
  /-- `FX55` RegisterDump -/
  | registerDump (x : RegIdx)
  /-- `FX65` RegisterLoad -/
  | registerLoad (x : RegIdx)
  /-- `8XYn`, Math(x, y, Unknown(sub)) -/
  | mathUnknown (x y : RegIdx) (sub : BitVec 4)
  /-- Undefined(raw) of category 0x0 -/
  | undefinedZero (raw : Word)
  /-- Undefined(raw) of category 0xE -/
  | undefinedKey (raw : Word)
  /-- Undefined(raw) of category 0xF -/
  | undefinedMisc (raw : Word)
  deriving DecidableEq, Repr

end Sys2Proof
end

