-- ==== Sys2Proof/WellFormed.lean ====
section
/-! DEFINITION. Well-formed instructions: those the decoder can return (spec/30_encoding.md R76 to R80, R83). -/

namespace Sys2Proof

/-- The math sub-operation codes that name an operation (R76 `mathop`, R79). -/
def definedMathCodes : List (BitVec 4) := [0x0, 0x1, 0x2, 0x3, 0x4, 0x5, 0x6, 0x7, 0xE]

/-- The two defined words of category 0x0 (R77). -/
def definedZeroWords : List Word := [0x00E0, 0x00EE]

/-- The defined function codes of category 0xE (R76, R80). -/
def definedKeyCodes : List Byte := [0x9E, 0xA1]

/-- The defined function codes of category 0xF (R76, R80). -/
def definedMiscCodes : List Byte := [0x07, 0x0A, 0x15, 0x18, 0x1E, 0x29, 0x33, 0x55, 0x65]

/-- Register and constant fields hold every value of their width, so only the "unknown" tags can be
ill formed: each must carry a code or word that no defined instruction has (R77, R79, R80). -/
def Instr.wf : Instr → Bool
  | .mathUnknown _ _ sub => !definedMathCodes.contains sub
  | .undefinedZero raw => raw.extractLsb' 12 4 == 0x0#4 && !definedZeroWords.contains raw
  | .undefinedKey raw => raw.extractLsb' 12 4 == 0xE#4 && !definedKeyCodes.contains (raw.extractLsb' 0 8)
  | .undefinedMisc raw => raw.extractLsb' 12 4 == 0xF#4 && !definedMiscCodes.contains (raw.extractLsb' 0 8)
  | .clearScreen | .ret | .goto _ | .call _ | .skipIfEqualConst _ _ | .skipIfNotEqualConst _ _
  | .skipIfEqualReg _ _ | .setConst _ _ | .addConst _ _ | .mathAssign _ _ | .mathOr _ _
  | .mathAnd _ _ | .mathXor _ _ | .mathAdd _ _ | .mathSubtract _ _ | .mathShiftRight _ _
  | .mathDifference _ _ | .mathShiftLeft _ _ | .skipIfNotEqualReg _ _ | .setPointer _
  | .relativeJump _ | .random _ _ | .draw _ _ _ | .keyPressed _ | .keyNotPressed _ | .getDelay _
  | .waitKeyPress _ | .setDelay _ | .setSound _ | .addPointer _ | .fontGlyph _ | .splitNumber _
  | .registerDump _ | .registerLoad _ => true

end Sys2Proof
end

