-- ==== Sys2Proof/Decode.lean ====
section
/-! DEFINITION. The opcode decoder and the encoder (spec/30_encoding.md R70 to R85), and the byte
order of an instruction word (spec/20_memory.md R55). -/

namespace Sys2Proof

/-- The register index a 4-bit field names (R73). -/
def regOfNibble (b : BitVec 4) : RegIdx := ⟨b.toNat, b.isLt⟩

/-- The 4-bit field that names a register, or holds a sprite height (R73). -/
def nibbleOfFin (r : Fin 16) : BitVec 4 := BitVec.ofNat 4 r.val

/-- `C = nib(op,0,1)`, the category (R71). -/
def fieldC (op : Word) : BitVec 4 := op.extractLsb' 12 4

/-- `X = nib(op,1,1)` (R71). -/
def fieldX (op : Word) : RegIdx := regOfNibble (op.extractLsb' 8 4)

/-- `Y = nib(op,2,1)` (R71). -/
def fieldY (op : Word) : RegIdx := regOfNibble (op.extractLsb' 4 4)

/-- `N = nib(op,3,1)` (R71). -/
def fieldN (op : Word) : BitVec 4 := op.extractLsb' 0 4

/-- `NN = nib(op,2,2)` (R71). -/
def fieldNN (op : Word) : Byte := op.extractLsb' 0 8

/-- `NNN = nib(op,1,3)` (R71). -/
def fieldNNN (op : Word) : BitVec 12 := op.extractLsb' 0 12

/-- Category 0x0: two words compared on all 16 bits, every other one undefined (R77). -/
def decodeZero (op : Word) : Instr :=
  if op = 0x00E0#16 then .clearScreen
  else if op = 0x00EE#16 then .ret
  else .undefinedZero op

/-- Category 0x8: the low nibble selects the sub-operation (R76 `mathop`, R79). -/
def decodeMath (x y : RegIdx) (n : BitVec 4) : Instr :=
  match n.toNat with
  | 0x0 => .mathAssign x y
  | 0x1 => .mathOr x y
  | 0x2 => .mathAnd x y
  | 0x3 => .mathXor x y
  | 0x4 => .mathAdd x y
  | 0x5 => .mathSubtract x y
  | 0x6 => .mathShiftRight x y
  | 0x7 => .mathDifference x y
  | 0xE => .mathShiftLeft x y
  | _ => .mathUnknown x y n

/-- Category 0xE: the function code `NN` selects (R76, R80). -/
def decodeKey (op : Word) : Instr :=
  match (fieldNN op).toNat with
  | 0x9E => .keyPressed (fieldX op)
  | 0xA1 => .keyNotPressed (fieldX op)
  | _ => .undefinedKey op

/-- Category 0xF: the function code `NN` selects (R76, R80). -/
def decodeMisc (op : Word) : Instr :=
  match (fieldNN op).toNat with
  | 0x07 => .getDelay (fieldX op)
  | 0x0A => .waitKeyPress (fieldX op)
  | 0x15 => .setDelay (fieldX op)
  | 0x18 => .setSound (fieldX op)
  | 0x1E => .addPointer (fieldX op)
  | 0x29 => .fontGlyph (fieldX op)
  | 0x33 => .splitNumber (fieldX op)
  | 0x55 => .registerDump (fieldX op)
  | 0x65 => .registerLoad (fieldX op)
  | _ => .undefinedMisc op

/-- The decoder: pure and total on 16-bit words, by category (R75, R76). The last arm is category
0xF, the only 4-bit value the arms above leave. -/
def decode (op : Word) : Instr :=
  match (fieldC op).toNat with
  | 0x0 => decodeZero op
  | 0x1 => .goto (fieldNNN op)
  | 0x2 => .call (fieldNNN op)
  | 0x3 => .skipIfEqualConst (fieldX op) (fieldNN op)
  | 0x4 => .skipIfNotEqualConst (fieldX op) (fieldNN op)
  | 0x5 => .skipIfEqualReg (fieldX op) (fieldY op)
  | 0x6 => .setConst (fieldX op) (fieldNN op)
  | 0x7 => .addConst (fieldX op) (fieldNN op)
  | 0x8 => decodeMath (fieldX op) (fieldY op) (fieldN op)
  | 0x9 => .skipIfNotEqualReg (fieldX op) (fieldY op)
  | 0xA => .setPointer (fieldNNN op)
  | 0xB => .relativeJump (fieldNNN op)
  | 0xC => .random (fieldX op) (fieldNN op)
  | 0xD => .draw (fieldX op) (fieldY op) (regOfNibble (fieldN op))
  | 0xE => decodeKey op
  | _ => decodeMisc op

/-- Why a byte list holds no instruction. Every 16-bit word decodes (R75, R82), so the only reason is
that a whole word is not there. -/
inductive DecodeReject where
  /-- Fewer than the 2 bytes every instruction has (R70). -/
  | shorterThanAWord
  deriving DecidableEq, Repr

/-- `{hi, lo}`: the opcode of two consecutive bytes, the first the high one (R55). -/
def wordOfBytes (hi lo : Byte) : Word := hi ++ lo

/-- The byte an instruction word stores at the lower address (R55). -/
def highByte (w : Word) : Byte := w.extractLsb' 8 8

/-- The byte an instruction word stores at the higher address (R55). -/
def lowByte (w : Word) : Byte := w.extractLsb' 0 8

/-- The instruction at the front of a byte list, and the bytes after it (R55, R70). -/
def decodeBytes : List Byte → Except DecodeReject (Instr × List Byte)
  | hi :: lo :: rest => .ok (decode (wordOfBytes hi lo), rest)
  | _ => .error .shorterThanAWord

/-- Format `RB`: category, register, byte (R72). -/
def encodeRB (c : BitVec 4) (x : RegIdx) (nn : Byte) : Word := c ++ (nibbleOfFin x ++ nn)

/-- Format `RRN`: category, two registers, nibble (R72). -/
def encodeRRN (c : BitVec 4) (x y : RegIdx) (n : BitVec 4) : Word :=
  c ++ (nibbleOfFin x ++ (nibbleOfFin y ++ n))

/-- Format `A`: category, address (R72). -/
def encodeA (c : BitVec 4) (nnn : BitVec 12) : Word := c ++ nnn

/-- The word of an instruction, from the layouts of R72 and the patterns of R84. For the two skips whose low
nibble is ignored it is the word with nibble 0 (R83). DESIGN CHOICE for ill-formed terms: notes/assumptions/13.md. -/
def encode : Instr → Word
  | .clearScreen => 0x00E0
  | .ret => 0x00EE
  | .goto nnn => encodeA 0x1 nnn
  | .call nnn => encodeA 0x2 nnn
  | .skipIfEqualConst x nn => encodeRB 0x3 x nn
  | .skipIfNotEqualConst x nn => encodeRB 0x4 x nn
  | .skipIfEqualReg x y => encodeRRN 0x5 x y 0x0
  | .setConst x nn => encodeRB 0x6 x nn
  | .addConst x nn => encodeRB 0x7 x nn
  | .mathAssign x y => encodeRRN 0x8 x y 0x0
  | .mathOr x y => encodeRRN 0x8 x y 0x1
  | .mathAnd x y => encodeRRN 0x8 x y 0x2
  | .mathXor x y => encodeRRN 0x8 x y 0x3
  | .mathAdd x y => encodeRRN 0x8 x y 0x4
  | .mathSubtract x y => encodeRRN 0x8 x y 0x5
  | .mathShiftRight x y => encodeRRN 0x8 x y 0x6
  | .mathDifference x y => encodeRRN 0x8 x y 0x7
  | .mathShiftLeft x y => encodeRRN 0x8 x y 0xE
  | .skipIfNotEqualReg x y => encodeRRN 0x9 x y 0x0
  | .setPointer nnn => encodeA 0xA nnn
  | .relativeJump nnn => encodeA 0xB nnn
  | .random x nn => encodeRB 0xC x nn
  | .draw x y n => encodeRRN 0xD x y (nibbleOfFin n)
  | .keyPressed x => encodeRB 0xE x 0x9E
  | .keyNotPressed x => encodeRB 0xE x 0xA1
  | .getDelay x => encodeRB 0xF x 0x07
  | .waitKeyPress x => encodeRB 0xF x 0x0A
  | .setDelay x => encodeRB 0xF x 0x15
  | .setSound x => encodeRB 0xF x 0x18
  | .addPointer x => encodeRB 0xF x 0x1E
  | .fontGlyph x => encodeRB 0xF x 0x29
  | .splitNumber x => encodeRB 0xF x 0x33
  | .registerDump x => encodeRB 0xF x 0x55
  | .registerLoad x => encodeRB 0xF x 0x65
  | .mathUnknown x y sub => encodeRRN 0x8 x y sub
  | .undefinedZero raw => raw
  | .undefinedKey raw => raw
  | .undefinedMisc raw => raw

/-- The 16-bit word whose low `nbits` bits are those of `w`, the rest 0, as spec/opcode_table.json
numbers them. -/
def tableWord (nbits w : Nat) : Word := BitVec.ofNat 16 (w % 2 ^ nbits)

/-- What the decoder reads from a table word laid out as the hardware stores it (R55). Every
instruction is one 16-bit word (R70), so a longer one is no instruction (DESIGN CHOICE, notes/assumptions/16.md). -/
def decodeTableWord (nbits w : Nat) : Option Instr :=
  if 16 < nbits then none
  else
    match decodeBytes [highByte (tableWord nbits w), lowByte (tableWord nbits w)] with
    | .ok (i, _) => some i
    | .error _ => none

end Sys2Proof
end

