-- ==== Sys2Proof/Config.lean ====
section
/-! DEFINITION. What an implementation fixes (spec/00_scope.md R6, R7), the quirk record (R8), and the
free values of the host's step inputs (spec/40_execution_cycle.md R101). -/

namespace Sys2Proof

/-- `MEM_SIZE` (R6, R33). -/
abbrev memSize : Nat := 4096

/-- Nanoseconds in a second: `tacc` counts units of 1/10^9 tick (R32, R262). -/
abbrev nanosPerSecond : Nat := 1000000000

/-- `FONT_DATA` is 16 glyphs of 5 bytes (R7, R34). -/
abbrev fontSize : Nat := 80

/-- The three readings of "the inverse sense for Difference" (spec/43_math.md R161, decision D12). -/
inductive DifferenceFlag where
  /-- `b2n(a < r)`, the default -/
  | destLess
  /-- `b2n(a <= r)` -/
  | destLessEq
  /-- `b2n(b > r)` -/
  | minuendGreater
  deriving DecidableEq, Repr

/-- The parameters the source leaves open (R7; spec/93_implementation_defined.md U4, U18 to U23). They
are fixed for a machine: no instruction and no host call changes one. State carries them, so that a
claim about every state holds for every value of them (DESIGN CHOICE, notes/assumptions/6.md). -/
structure Config where
  /-- `WIDTH`, a positive multiple of 8 -/
  width : Nat
  /-- `HEIGHT` -/
  height : Nat
  /-- `LOAD_OFFSET` -/
  loadOffset : Nat
  /-- `FONT_BASE` -/
  fontBase : Nat
  /-- `FONT_DATA` -/
  fontData : List Byte
  /-- `STACK_DEPTH` -/
  stackDepth : Nat
  /-- `TICK_RATE`, ticks per second -/
  tickRate : Nat
  /-- `DIFFERENCE_FLAG` -/
  differenceFlag : DifferenceFlag
  /-- `FLAG_LAST` -/
  flagLast : Bool
  deriving DecidableEq, Repr

/-- The limits the spec sets on the parameters: `WIDTH` a positive multiple of 8 (R7, R187), a
non-empty grid, a positive tick rate (R40), a font of 80 bytes inside the store (R34, R51) and an even load
offset inside the store (R24, R51). DEDUCED: notes/assumptions/18.md. -/
def Config.wf (c : Config) : Bool :=
  decide (0 < c.width ∧ c.width % 8 = 0 ∧ 0 < c.height ∧ 0 < c.tickRate ∧
    c.fontData.length = fontSize ∧ c.fontBase + fontSize ≤ memSize ∧
    c.loadOffset + 2 ≤ memSize ∧ c.loadOffset % 2 = 0)

/-- The quirk configuration: six independent booleans, field by field the names of R8. -/
structure Quirks where
  /-- `q_flag_reset`, flag-reset-on-bitwise (R153) -/
  flagReset : Bool
  /-- `q_mem_sets_pointer`, save/load-sets-pointer (R236, R237) -/
  memSetsPointer : Bool
  /-- `q_display_wait`, display-wait (R106) -/
  displayWait : Bool
  /-- `q_partial_wrap`, partial-sprite-wrap (R186) -/
  partialWrap : Bool
  /-- `q_alt_shift_source`, alternate-shift-source (R159) -/
  altShiftSource : Bool
  /-- `q_alt_jump_register`, alternate-relative-jump-register (R128) -/
  altJumpRegister : Bool
  deriving DecidableEq, Repr

/-- FREE VALUE (R101, U17; notes/assumptions/5.md): nanoseconds that pass before a step whose inputs
the host's script does not give. Indexed by the count of such steps. -/
opaque Config.freeElapsed : Nat → Nat

/-- FREE VALUE (R101, U5; notes/assumptions/5.md): `inp.vblank` of such a step. -/
opaque Config.freeVblank : Nat → Bool

/-- FREE VALUE (R101, R142, U16; notes/assumptions/5.md): `inp.rand` of such a step. -/
opaque Config.freeRand : Nat → Byte

end Sys2Proof
end

