-- ==== Sys2Proof/Machine/Defaults.lean ====
section
/-! DEFINITION. The parameter values the spec takes (spec/00_scope.md R7, spec/10_state.md R34) and
the quirk setting `State.reset` is constructed with. -/

namespace Sys2Proof

/-- Glyphs 0 to 7 of `FONT_DATA`, one a line (R34). -/
def fontGlyphs0To7 : List Byte :=
  [0xF0, 0x90, 0x90, 0x90, 0xF0] ++
  [0x20, 0x60, 0x20, 0x20, 0x70] ++
  [0xF0, 0x10, 0xF0, 0x80, 0xF0] ++
  [0xF0, 0x10, 0xF0, 0x10, 0xF0] ++
  [0x90, 0x90, 0xF0, 0x10, 0x10] ++
  [0xF0, 0x80, 0xF0, 0x10, 0xF0] ++
  [0xF0, 0x80, 0xF0, 0x90, 0xF0] ++
  [0xF0, 0x10, 0x20, 0x40, 0x40]

/-- Glyphs 8 to F of `FONT_DATA`, one a line (R34). -/
def fontGlyphs8ToF : List Byte :=
  [0xF0, 0x90, 0xF0, 0x90, 0xF0] ++
  [0xF0, 0x90, 0xF0, 0x10, 0xF0] ++
  [0xF0, 0x90, 0xF0, 0x90, 0x90] ++
  [0xE0, 0x90, 0xE0, 0x90, 0xE0] ++
  [0xF0, 0x80, 0x80, 0x80, 0xF0] ++
  [0xE0, 0x90, 0x90, 0x90, 0xE0] ++
  [0xF0, 0x80, 0xF0, 0x80, 0xF0] ++
  [0xF0, 0x80, 0xF0, 0x80, 0x80]

/-- The spec's value of every parameter (R7). -/
def Config.default : Config where
  width := 64
  height := 32
  loadOffset := 0x200
  fontBase := 0x000
  fontData := fontGlyphs0To7 ++ fontGlyphs8ToF
  stackDepth := 8
  tickRate := 60
  differenceFlag := .destLess
  flagLast := true

/-- DESIGN CHOICE (notes/assumptions/7.md): every quirk clear. R281 leaves the construction's quirks to
the host and names no default. -/
def Quirks.allClear : Quirks where
  flagReset := false
  memSetsPointer := false
  displayWait := false
  partialWrap := false
  altShiftSource := false
  altJumpRegister := false

end Sys2Proof
end

