-- ==== Sys2Proof/Machine/State.lean ====
section
/-! DEFINITION. The whole state (spec/10_state.md R20 to R41), the events of the two agents (spec/00_scope.md
R14), what a step reports (spec/40_execution_cycle.md R109), and the state after reset (spec/70_reset_and_hazards.md R280). -/

namespace Sys2Proof.Machine

/-- The spec's fault reasons, each with its recorded value (R253). -/
inductive FaultReason where
  /-- Fetch at an odd `pc` (R104). -/
  | misalignedFetch (pc : Word)
  /-- Fetch with `pc + 2 > MEM_SIZE` (R104). -/
  | fetchOutOfRange (pc : Word)
  /-- Draw, SplitNumber, RegisterDump or RegisterLoad with `a + n > MEM_SIZE` (R54). -/
  | memoryOutOfRange (a : Word) (n : Nat)
  /-- Call with a full stack: the return address it could not push (R29). -/
  | stackOverflow (v : Word)
  /-- KeyPressed or KeyNotPressed with `V[x] > 15` (R200). -/
  | keyOutOfRange (k : Byte)
  /-- FontGlyph with `V[x] > 15` (R225). -/
  | fontDigitOutOfRange (d : Byte)
  deriving DecidableEq, Repr

/-- The source's error taxonomy: values a step returns, after which the caller may go on (R250). -/
inductive StepError where
  /-- `Undefined(raw)` executed (R251). -/
  | invalidOpcode (raw : Word)
  /-- `Math(_, _, Unknown(sub))` executed (R252). -/
  | invalidMathOperation (sub : BitVec 4)
  /-- Return on an empty stack (R255). -/
  | invalidState
  deriving DecidableEq, Repr

/-- What the machine gives back to the host for the last event: a step's outcome (R109) or the answer
of a host call (R210, R211, R265, R272). -/
inductive Report where
  /-- A host call that gives nothing back (R272): set quirks, an accepted load, reset, construction. -/
  | nothing
  /-- One instruction executed (R109). -/
  | ok
  /-- Key-wait mode, no instruction (R103). -/
  | waiting
  /-- Display-wait hold, no instruction (R106). -/
  | held
  /-- `running = false`, nothing done (R102). -/
  | halted
  /-- `Err(e)` (R109). -/
  | err (e : StepError)
  /-- `Fault(f)`, recorded in `fault` (R254). -/
  | fault (f : FaultReason)
  /-- press or release: whether the key state changed (R210, R211). -/
  | changed (b : Bool)
  /-- A host call that was rejected or refused and changed nothing (R210, R211, R265). -/
  | rejected
  deriving DecidableEq, Repr

/-- The inputs of one step (R101). -/
structure StepInput where
  /-- the monotonic time reading in nanoseconds -/
  now : Nat
  /-- read only by the display-wait hold (R106) -/
  vblank : Bool
  /-- read only by Random (R142) -/
  rand : Byte
  deriving DecidableEq, Repr

/-- What the host does between or as step calls (R14, R265 to R271). Host reads (R267, R268, R212)
change nothing and are functions of the state (Machine/HostCalls.lean). -/
inductive HostEvent where
  /-- one step call with its inputs (R100, R271) -/
  | call (inp : StepInput)
  /-- `press(k)` (R210) -/
  | press (k : Nat)
  /-- `release(k)` (R211) -/
  | release (k : Nat)
  /-- a write of the quirk record (R269) -/
  | setQuirks (q : Quirks)
  /-- `load(bytes)` (R265) -/
  | load (bytes : List Byte)
  /-- `reset(now)` (R270, R280) -/
  | reset (now : Nat)
  deriving DecidableEq, Repr

/-- The store: address and byte pairs with rising addresses, none equal to what an unlisted address
reads as (Machine/Memory.lean `Memory.unlisted` and `Memory.wf`; DESIGN CHOICE, notes/assumptions/9.md). -/
abbrev Memory := List Host.Cell

/-- The framebuffer: the row-major element numbers `y*WIDTH + x` of its lit pixels (R35), rising
(Machine/Framebuffer.lean `Framebuffer.wf`; DESIGN CHOICE, notes/assumptions/10.md). -/
abbrev Framebuffer := List Nat

/-- Machine State (R41), under the spec's field names, and the host's side of the interface: the
parameters, the inputs of the step under way, the host's coming events and the last report. -/
structure State where
  /-- the parameters (R7): fixed, no step and no host call writes them -/
  cfg : Config
  /-- the quirk configuration (R8, R39) -/
  q : Quirks
  /-- the store (R33, R50) -/
  mem : Memory
  /-- the general registers (R20) -/
  V : Vector Byte 16
  /-- the pointer register (R23) -/
  I : Word
  /-- the program counter (R24) -/
  pc : Word
  /-- the call stack, top at the end (R27) -/
  stack : List Word
  /-- R37 -/
  running : Bool
  /-- the pending key-wait register (R36) -/
  wait : Option RegIdx
  /-- the framebuffer (R35) -/
  FB : Framebuffer
  /-- the key states, true when pressed (R36) -/
  key : Vector Bool 16
  /-- the delay timer (R31) -/
  DT : Byte
  /-- the sound timer (R31) -/
  ST : Byte
  /-- the carried fraction of a tick, in tick·ns/s (R32) -/
  tacc : Nat
  /-- the host time of the last timer advance, in nanoseconds (R32) -/
  tlast : Nat
  /-- the recorded fault (R38) -/
  fault : Option FaultReason
  /-- MODEL'S OWN: the inputs of the step under way (R101) -/
  inp : StepInput
  /-- MODEL'S OWN: the host's coming events, the next one first (notes/assumptions/4.md) -/
  script : List HostEvent
  /-- MODEL'S OWN: how many step inputs have been drawn from the free values (notes/assumptions/5.md) -/
  drawn : Nat
  /-- MODEL'S OWN: what the last event gave back to the host (notes/assumptions/3.md) -/
  report : Report
  deriving DecidableEq, Repr

/-- Where the machine has no transition. A fault of the spec (R253) is not one of these: raising it is a
next state in which `fault` records it (R254, notes/assumptions/1.md). -/
inductive Fault where
  /-- Raised by a step call on a state whose `fault` is set: the spec's `Stuck(f)`, "no transition from
  such a state" (R102, U26). Safe: no claim can rest on what follows. -/
  | stuck (f : FaultReason)
  /-- Raised by a step call whose `now` is less than `tlast`: the host broke its duty and "the model
  gives such a step no transition" (R262, U15; notes/assumptions/2.md). Safe: no claim can rest on what follows. -/
  | timeBackwards
  deriving DecidableEq, Repr

/-- Why an instruction has no meaning here. Every instruction of the table has one, so no step of this model
answers with a refusal. -/
inductive Refusal where
  /-- Raised by an arm of `exec` for an instruction that is not modelled. No arm raises it. Safe. -/
  | notModelled (mnemonic : String)
  deriving DecidableEq, Repr

/-- What an instruction or a step answers. -/
abbrev Result := Host.Outcome State Fault Refusal

/-- Construction (R281): the initial value of every field (R41) for the host's parameters, quirks and
time. Memory with nothing listed reads as zero everywhere except the font. The values of the model's own
fields are DESIGN CHOICES (notes/assumptions/8.md). -/
def State.construct (cfg : Config) (q : Quirks) (now : Nat) : State where
  cfg := cfg
  q := q
  mem := []
  V := Vector.replicate 16 0
  I := 0
  pc := BitVec.ofNat 16 cfg.loadOffset
  stack := []
  running := true
  wait := none
  FB := []
  key := Vector.replicate 16 false
  DT := 0
  ST := 0
  tacc := 0
  tlast := now
  fault := none
  inp := { now := now, vblank := false, rand := 0 }
  script := []
  drawn := 0
  report := .nothing

/-- The machine right after construction with the spec's parameters (R7), every quirk clear and host time 0 (the last two
are DESIGN CHOICES: the spec leaves them to the host, notes/assumptions/7.md). -/
def State.reset : State := State.construct Config.default Quirks.allClear 0

end Sys2Proof.Machine
end

