-- ==== Sys2Proof/Machine/Framebuffer.lean ====
section
/-! DEFINITION. The framebuffer engine: pixels, the XOR compositor, the collision detector and the
wrap/clip logic (spec/44_display.md R180 to R187). -/

namespace Sys2Proof.Machine

/-- Element `k` of the row-major grid (R35). -/
def Framebuffer.lit (fb : Framebuffer) (k : Nat) : Bool := fb.contains k

/-- Flips element `k`, keeping the list rising (R187 `FB <- not FB`). -/
def Framebuffer.flip (k : Nat) : Framebuffer → Framebuffer
  | [] => [k]
  | j :: rest =>
    if k < j then k :: j :: rest
    else if k = j then rest
    else j :: Framebuffer.flip k rest

/-- The canonical form: rising element numbers of the grid (R35). -/
abbrev Framebuffer.wf (cfg : Config) (fb : Framebuffer) : Prop :=
  fb.Pairwise (· < ·) ∧ ∀ k ∈ fb, k < cfg.width * cfg.height

/-- `clear()`: every pixel false (R181). -/
def Framebuffer.clear : Framebuffer := []

/-- The row-major element number of column `x`, row `y` (R35). -/
def pixelIndex (cfg : Config) (x y : Nat) : Nat := y * cfg.width + x

/-- `target(cx, cy)`: the element a candidate pixel lands on, or none where it is clipped (R186). -/
def pixelTarget (cfg : Config) (q : Quirks) (cx cy : Nat) : Option Nat :=
  if q.partialWrap then
    if cfg.width ≤ cx ∨ cfg.height ≤ cy then none else some (pixelIndex cfg cx cy)
  else some (pixelIndex cfg (cx % cfg.width) (cy % cfg.height))

/-- One sprite bit that is set: flip its target, and note a pixel that was lit (R183, R187). The pair is the grid
and `collided`. -/
def drawPixel (cfg : Config) (q : Quirks) (cx cy : Nat) (acc : Framebuffer × Bool) : Framebuffer × Bool :=
  match pixelTarget cfg q cx cy with
  | none => acc
  | some k => (acc.1.flip k, acc.2 || acc.1.lit k)

/-- The sprite bit of column `c`: bit 7 is the leftmost (R184). -/
def spriteBit (row : Byte) (c : Nat) : Bool := row.getLsbD (7 - c)

/-- One row of a sprite, columns left to right (R183). -/
def drawRow (cfg : Config) (q : Quirks) (x0 cy : Nat) (row : Byte) (acc : Framebuffer × Bool) :
    Framebuffer × Bool :=
  (List.range 8).foldl (fun acc c => if spriteBit row c then drawPixel cfg q (x0 + c) cy acc else acc) acc

/-- The rows of a sprite from row `cy` on, top to bottom (R183). -/
def drawRows (cfg : Config) (q : Quirks) (x0 : Nat) : Nat → List Byte → Framebuffer × Bool → Framebuffer × Bool
  | _, [], acc => acc
  | cy, row :: rows, acc => drawRows cfg q x0 (cy + 1) rows (drawRow cfg q x0 cy row acc)

/-- `draw_sprite(x0, y0, n, rows) -> collided`, with the new grid (R183). -/
def drawSprite (cfg : Config) (q : Quirks) (x0 y0 : Nat) (rows : List Byte) (fb : Framebuffer) :
    Framebuffer × Bool :=
  drawRows cfg q x0 y0 rows (fb, false)

end Sys2Proof.Machine
end

