-- ==== Sys2Proof/Machine/Memory.lean ====
section
/-! DEFINITION. The store as a canonical list of cells (spec/20_memory.md R50 to R57). -/

namespace Sys2Proof.Machine

/-- What an unlisted address reads as: the store's reset contents, `FONT_DATA` from `FONT_BASE` on and
zero everywhere else (R34, R41, R51). -/
def Memory.unlisted (cfg : Config) (a : Nat) : Byte :=
  if cfg.fontBase ≤ a then cfg.fontData.getD (a - cfg.fontBase) 0 else 0

/-- The byte at an address (R57: the last byte written there). -/
def Memory.read (cfg : Config) (m : Memory) (a : Nat) : Byte :=
  match m with
  | [] => Memory.unlisted cfg a
  | c :: rest => if c.1 = a then c.2 else Memory.read cfg rest a

/-- Puts a cell in front, unless it holds what its address reads as unlisted. -/
def Memory.put (cfg : Config) (a : Nat) (b : Byte) (m : Memory) : Memory :=
  if b = Memory.unlisted cfg a then m else (a, b) :: m

/-- Writes one byte, keeping the canonical form. -/
def Memory.write (cfg : Config) (a : Nat) (b : Byte) : Memory → Memory
  | [] => Memory.put cfg a b []
  | c :: rest =>
    if a < c.1 then Memory.put cfg a b (c :: rest)
    else if a = c.1 then Memory.put cfg a b rest
    else c :: Memory.write cfg a b rest

/-- Writes a list of bytes at consecutive addresses. -/
def Memory.writeBytes (cfg : Config) (a : Nat) : List Byte → Memory → Memory
  | [], m => m
  | b :: bs, m => Memory.writeBytes cfg (a + 1) bs (Memory.write cfg a b m)

/-- Reads `n` bytes at consecutive addresses. -/
def Memory.readBytes (cfg : Config) (m : Memory) (a n : Nat) : List Byte :=
  (List.range n).map fun k => Memory.read cfg m (a + k)

/-- The canonical form: rising addresses of the store, none listed with its unlisted value. -/
abbrev Memory.wf (cfg : Config) (m : Memory) : Prop :=
  m.Pairwise (fun c d => c.1 < d.1) ∧ ∀ c ∈ m, c.1 < memSize ∧ c.2 ≠ Memory.unlisted cfg c.1

end Sys2Proof.Machine
end

