-- ==== Sys2Proof/Machine/Ops.lean ====
section
/-! DEFINITION. The named operations over registers, `pc`, the stack and the store, the ways an
instruction ends, and the one operation that raises a fault and the one that raises an error. -/

namespace Sys2Proof.Machine

/-- `V[x]` (R11). -/
def State.reg (x : RegIdx) (s : State) : Byte := s.V[x]

/-- `V[x] <- b` (R11, R20: none is hardwired). -/
def State.setReg (x : RegIdx) (b : Byte) (s : State) : State := { s with V := s.V.set x b }

/-- `I <- a` (R11). -/
def State.setI (a : Word) (s : State) : State := { s with I := a }

/-- `pc <- a` (R11). -/
def State.setPc (a : Word) (s : State) : State := { s with pc := a }

/-- `pc <- pc +16 2`: the phase-5 advance and a skip's extra advance (R105, R123). -/
def State.advancePc (s : State) : State := s.setPc (s.pc + 2)

/-- The common part of the skips (R123). -/
def State.skipWhen (c : Bool) (s : State) : State := if c then s.advancePc else s

/-- `zext_16(nnn)` (R10, R73). -/
def addressOf (nnn : BitVec 12) : Word := nnn.setWidth 16

/-- `zext_16(b)` of a register value (R10). -/
def wordOf (b : Byte) : Word := b.setWidth 16

/-- The end of an instruction that completes: the step reports `Ok` (R100 phase 7, R109). -/
def finish (s : State) : Result := .next { s with report := .ok }

/-- `raise` of an error of the source's taxonomy: the step reports it and nothing else happens, so a
caller may step again (R250 to R252, R256). No state is saved and no handler runs (R259). -/
def raiseError (e : StepError) (s : State) : Result := .next { s with report := .err e }

/-- TAKING A FAULT, the one operation: `fault <- some f` and the step reports `Fault(f)` (R254). No state
is saved and control does not move (R250, R259). There is no return from it but reset (R260). -/
def raiseFault (f : FaultReason) (s : State) : Result := .next { s with fault := some f, report := .fault f }

/-- `push(v)` (R29; DEDUCED for a stack beyond its bound, notes/assumptions/15.md). -/
def State.push (v : Word) (s : State) : Except FaultReason State :=
  if s.stack.length = s.cfg.stackDepth then .error (.stackOverflow v)
  else .ok { s with stack := s.stack ++ [v] }

/-- `pop()`: the last entry and the state without it, none where the stack is empty (R30). -/
def State.pop (s : State) : Option (Word × State) :=
  match s.stack.getLast? with
  | none => none
  | some v => some (v, { s with stack := s.stack.dropLast })

/-- The range check of an access of `n` bytes at `a`: no wrap, and an access of no byte never fails (R54). -/
def accessOk (a : Word) (n : Nat) : Bool := n == 0 || decide (a.toNat + n ≤ memSize)

/-- `MemRead(a, n)` (R11, R54). -/
def State.memRead (a : Word) (n : Nat) (s : State) : Except FaultReason (List Byte) :=
  if accessOk a n then .ok (s.mem.readBytes s.cfg a.toNat n) else .error (.memoryOutOfRange a n)

/-- `MemWrite(a, n, bs)`, with `n` the length of `bs` (R11, R54). -/
def State.memWrite (a : Word) (bs : List Byte) (s : State) : Except FaultReason State :=
  if accessOk a bs.length then .ok { s with mem := s.mem.writeBytes s.cfg a.toNat bs }
  else .error (.memoryOutOfRange a bs.length)

/-- The byte of the store at an address: what every claim about memory is said through. -/
def State.byteAt (a : Nat) (s : State) : Byte := s.mem.read s.cfg a

/-- The pixel at column `x`, row `y` (R35). -/
def State.pixel (x y : Nat) (s : State) : Bool := s.FB.lit (pixelIndex s.cfg x y)

/-- `V[k], V[k+1], ... <- bs` (R237). -/
def writeRegs : Nat → List Byte → Vector Byte 16 → Vector Byte 16
  | _, [], v => v
  | k, b :: bs, v => writeRegs (k + 1) bs (v.setIfInBounds k b)

end Sys2Proof.Machine
end

