-- ==== Sys2Proof/Machine/Operands.lean ====
section
/-! DEFINITION. The operand forms whose value depends on a quirk or is computed from a register
(spec/41_control_flow.md R128, spec/43_math.md R159, spec/44_display.md R185, spec/46_timer_pointer_memory.md R226, R236). -/

namespace Sys2Proof.Machine

/-- The register RelativeJump adds: `V0`, or the one `nnn[11:8]` names under the quirk (R128). -/
def jumpRegister (q : Quirks) (nnn : BitVec 12) : RegIdx :=
  if q.altJumpRegister then regOfNibble (nnn.extractLsb' 8 4) else 0

/-- The operand of a shift, from the old values `a` of `V[x]` and `b` of `V[y]` (R159). -/
def shiftOperand (q : Quirks) (a b : Byte) : Byte := if q.altShiftSource then b else a

/-- The column a Draw starts at: `V[x] mod WIDTH` (R185, R189). -/
def startColumn (cfg : Config) (b : Byte) : Nat := b.toNat % cfg.width

/-- The row a Draw starts at: `V[y] mod HEIGHT` (R185, R189). -/
def startRow (cfg : Config) (b : Byte) : Nat := b.toNat % cfg.height

/-- The three decimal digits of a register value, hundreds first (R226). -/
def decimalDigits (v : Byte) : List Byte :=
  [BitVec.ofNat 8 (v.toNat / 100), BitVec.ofNat 8 (v.toNat / 10 % 10), BitVec.ofNat 8 (v.toNat % 10)]

/-- `[V[0], ..., V[x]]` (R236). -/
def registersUpTo (x : RegIdx) (s : State) : List Byte := s.V.toList.take (x.val + 1)

/-- `I` after RegisterDump and RegisterLoad: `R+1` further under the quirk (R236, R237). -/
def State.stepPointer (x : RegIdx) (s : State) : State :=
  if s.q.memSetsPointer then s.setI (s.I + BitVec.ofNat 16 (x.val + 1)) else s

/-- `FONT_BASE + 5 * d`, the address of glyph `d` (R34, R225). -/
def glyphAddress (cfg : Config) (d : Byte) : Word := BitVec.ofNat 16 (cfg.fontBase + 5 * d.toNat)

/-- The key a register value names: none for a code above 15 (R200). -/
def keyCode (k : Byte) : Option (Fin 16) := if h : k.toNat < 16 then some ⟨k.toNat, h⟩ else none

end Sys2Proof.Machine
end

