-- ==== Sys2Proof/Machine/ControlFlow.lean ====
section
/-! DEFINITION. Control-flow instructions (spec/41_control_flow.md R120 to R128). They run with `pc` already advanced. -/

namespace Sys2Proof.Machine

/-- Goto (R120). -/
def execGoto (nnn : BitVec 12) (s : State) : Result := finish (s.setPc (addressOf nnn))

/-- Return (R121). On an empty stack `running` is cleared and the error is returned. -/
def execReturn (s : State) : Result :=
  match s.pop with
  | none => raiseError .invalidState { s with running := false }
  | some (v, s') => finish (s'.setPc v)

/-- Call (R122): the push's overflow check comes before `pc` is written (R258). -/
def execCall (nnn : BitVec 12) (s : State) : Result :=
  match s.push s.pc with
  | .error f => raiseFault f s
  | .ok s' => finish (s'.setPc (addressOf nnn))

/-- SkipIfEqualConst (R124). -/
def execSkipIfEqualConst (x : RegIdx) (nn : Byte) (s : State) : Result := finish (s.skipWhen (s.reg x == nn))

/-- SkipIfNotEqualConst (R125). -/
def execSkipIfNotEqualConst (x : RegIdx) (nn : Byte) (s : State) : Result := finish (s.skipWhen (s.reg x != nn))

/-- SkipIfEqualReg (R126). -/
def execSkipIfEqualReg (x y : RegIdx) (s : State) : Result := finish (s.skipWhen (s.reg x == s.reg y))

/-- SkipIfNotEqualReg (R127). -/
def execSkipIfNotEqualReg (x y : RegIdx) (s : State) : Result := finish (s.skipWhen (s.reg x != s.reg y))

/-- RelativeJump (R128). -/
def execRelativeJump (nnn : BitVec 12) (s : State) : Result :=
  finish (s.setPc (addressOf nnn + wordOf (s.reg (jumpRegister s.q nnn))))

end Sys2Proof.Machine
end

