-- ==== Sys2Proof/Machine/Flags.lean ====
section
/-! DEFINITION. Every value written to `VF` as a flag, and the order of the result and flag writes
(spec/43_math.md R151, R153, R157 to R163, spec/44_display.md R189). -/

namespace Sys2Proof.Machine

/-- `b2n(c)` as a register value (R10). -/
def flagByte (c : Bool) : Byte := if c then 1 else 0

/-- Add: the result is less than the old destination (R157). -/
def addFlag (a r : Byte) : Byte := flagByte (decide (r.toNat < a.toNat))

/-- Subtract: the old destination is greater than the result, the formula of R158 and not its gloss (spec/90_conflicts.md C1). -/
def subtractFlag (a r : Byte) : Byte := flagByte (decide (r.toNat < a.toNat))

/-- Difference: the reading the parameter selects (R161). -/
def differenceFlag (d : DifferenceFlag) (a b r : Byte) : Byte :=
  match d with
  | .destLess => flagByte (decide (a.toNat < r.toNat))
  | .destLessEq => flagByte (decide (a.toNat ≤ r.toNat))
  | .minuendGreater => flagByte (decide (r.toNat < b.toNat))

/-- ShiftRight: the bit shifted out is bit 0 (R160). -/
def shiftRightFlag (v : Byte) : Byte := flagByte (v.getLsbD 0)

/-- ShiftLeft: the bit shifted out is bit 7 (R163). -/
def shiftLeftFlag (v : Byte) : Byte := flagByte (v.getLsbD 7)

/-- `write_rf(r, f)`: the result into `V[x]` and the flag into `VF`, in the order `FLAG_LAST` gives (R151). -/
def State.writeRF (x : RegIdx) (r f : Byte) (s : State) : State :=
  if s.cfg.flagLast then (s.setReg x r).setReg VF f else (s.setReg VF f).setReg x r

/-- `bitwise_write(r)`: the result, and a cleared flag only under the quirk (R153). -/
def State.bitwiseWrite (x : RegIdx) (r : Byte) (s : State) : State :=
  if s.q.flagReset then s.writeRF x r 0 else s.setReg x r

end Sys2Proof.Machine
end

