-- ==== Sys2Proof/Machine/Display.lean ====
section
/-! DEFINITION. Display instructions (spec/44_display.md R182, R188 to R190). -/

namespace Sys2Proof.Machine

/-- ClearScreen (R182). -/
def execClearScreen (s : State) : Result := finish { s with FB := Framebuffer.clear }

/-- Draw (R188, R189): coordinates and rows are read before anything is written, `VF` is written last. -/
def execDraw (x y : RegIdx) (n : Fin 16) (s : State) : Result :=
  match s.memRead s.I n.val with
  | .error f => raiseFault f s
  | .ok rows =>
    let drawn := drawSprite s.cfg s.q (startColumn s.cfg (s.reg x)) (startRow s.cfg (s.reg y)) rows s.FB
    finish ({ s with FB := drawn.1 }.setReg VF (flagByte drawn.2))

end Sys2Proof.Machine
end

