-- ==== Sys2Proof/Machine/Keypad.lean ====
section
/-! DEFINITION. Key instructions (spec/45_keypad.md R200 to R203). -/

namespace Sys2Proof.Machine

/-- KeyPressed (R200, R201). -/
def execKeyPressed (x : RegIdx) (s : State) : Result :=
  match keyCode (s.reg x) with
  | none => raiseFault (.keyOutOfRange (s.reg x)) s
  | some k => finish (s.skipWhen s.key[k])

/-- KeyNotPressed (R200, R202). -/
def execKeyNotPressed (x : RegIdx) (s : State) : Result :=
  match keyCode (s.reg x) with
  | none => raiseFault (.keyOutOfRange (s.reg x)) s
  | some k => finish (s.skipWhen (!s.key[k]))

/-- WaitKeyPress (R203): only the marker is set, whatever the key states. -/
def execWaitKeyPress (x : RegIdx) (s : State) : Result := finish { s with wait := some x }

end Sys2Proof.Machine
end

