-- ==== Sys2Proof/Machine/Math.lean ====
section
/-! DEFINITION. Math instructions, category 0x8 (spec/43_math.md R150 to R164). Each reads `a = V[x]` and `b = V[y]`
before it writes (R150). -/

namespace Sys2Proof.Machine

/-- Assign (R152). -/
def execMathAssign (x y : RegIdx) (s : State) : Result := finish (s.setReg x (s.reg y))

/-- BitwiseOr (R154). -/
def execMathOr (x y : RegIdx) (s : State) : Result := finish (s.bitwiseWrite x (s.reg x ||| s.reg y))

/-- BitwiseAnd (R155). -/
def execMathAnd (x y : RegIdx) (s : State) : Result := finish (s.bitwiseWrite x (s.reg x &&& s.reg y))

/-- BitwiseXor (R156). -/
def execMathXor (x y : RegIdx) (s : State) : Result := finish (s.bitwiseWrite x (s.reg x ^^^ s.reg y))

/-- Add (R157). -/
def execMathAdd (x y : RegIdx) (s : State) : Result :=
  let a := s.reg x
  let r := a + s.reg y
  finish (s.writeRF x r (addFlag a r))

/-- Subtract (R158). -/
def execMathSubtract (x y : RegIdx) (s : State) : Result :=
  let a := s.reg x
  let r := a - s.reg y
  finish (s.writeRF x r (subtractFlag a r))

/-- ShiftRight (R159, R160). -/
def execMathShiftRight (x y : RegIdx) (s : State) : Result :=
  let v := shiftOperand s.q (s.reg x) (s.reg y)
  finish (s.writeRF x (v >>> 1) (shiftRightFlag v))

/-- Difference (R161, R162). -/
def execMathDifference (x y : RegIdx) (s : State) : Result :=
  let a := s.reg x
  let b := s.reg y
  let r := b - a
  finish (s.writeRF x r (differenceFlag s.cfg.differenceFlag a b r))

/-- ShiftLeft (R159, R163). -/
def execMathShiftLeft (x y : RegIdx) (s : State) : Result :=
  let v := shiftOperand s.q (s.reg x) (s.reg y)
  finish (s.writeRF x (v <<< 1) (shiftLeftFlag v))

/-- Unknown math sub-operation (R164, R252): the error, with nothing written. -/
def execMathUnknown (sub : BitVec 4) (s : State) : Result := raiseError (.invalidMathOperation sub) s

end Sys2Proof.Machine
end

