-- ==== Sys2Proof/Machine/RegisterConstant.lean ====
section
/-! DEFINITION. Register and constant instructions (spec/42_register_constant.md R140 to R142). -/

namespace Sys2Proof.Machine

/-- SetConst (R140). -/
def execSetConst (x : RegIdx) (nn : Byte) (s : State) : Result := finish (s.setReg x nn)

/-- AddConst (R141): no flag side effect. -/
def execAddConst (x : RegIdx) (nn : Byte) (s : State) : Result := finish (s.setReg x (s.reg x + nn))

/-- Random (R142): the step's free byte masked by the constant. -/
def execRandom (x : RegIdx) (nn : Byte) (s : State) : Result := finish (s.setReg x (s.inp.rand &&& nn))

end Sys2Proof.Machine
end

