-- ==== Sys2Proof/Machine/TimerPointerMemory.lean ====
section
/-! DEFINITION. Timer, pointer and memory instructions (spec/46_timer_pointer_memory.md R220 to R237). -/

namespace Sys2Proof.Machine

/-- GetDelay (R220). -/
def execGetDelay (x : RegIdx) (s : State) : Result := finish (s.setReg x s.DT)

/-- SetDelay (R221): `tacc` is not reset. -/
def execSetDelay (x : RegIdx) (s : State) : Result := finish { s with DT := s.reg x }

/-- SetSound (R222). -/
def execSetSound (x : RegIdx) (s : State) : Result := finish { s with ST := s.reg x }

/-- SetPointer (R223). -/
def execSetPointer (nnn : BitVec 12) (s : State) : Result := finish (s.setI (addressOf nnn))

/-- AddPointer (R224): wraps at 2^16, no flag. -/
def execAddPointer (x : RegIdx) (s : State) : Result := finish (s.setI (s.I + wordOf (s.reg x)))

/-- FontGlyph (R225). -/
def execFontGlyph (x : RegIdx) (s : State) : Result :=
  if 15 < (s.reg x).toNat then raiseFault (.fontDigitOutOfRange (s.reg x)) s
  else finish (s.setI (glyphAddress s.cfg (s.reg x)))

/-- SplitNumber (R226). -/
def execSplitNumber (x : RegIdx) (s : State) : Result :=
  match s.memWrite s.I (decimalDigits (s.reg x)) with
  | .error f => raiseFault f s
  | .ok s' => finish s'

/-- RegisterDump (R236). -/
def execRegisterDump (x : RegIdx) (s : State) : Result :=
  match s.memWrite s.I (registersUpTo x s) with
  | .error f => raiseFault f s
  | .ok s' => finish (s'.stepPointer x)

/-- RegisterLoad (R237): every byte is read before a register is written. -/
def execRegisterLoad (x : RegIdx) (s : State) : Result :=
  match s.memRead s.I (x.val + 1) with
  | .error f => raiseFault f s
  | .ok bs => finish ({ s with V := writeRegs 0 bs s.V }.stepPointer x)

end Sys2Proof.Machine
end

