-- ==== Sys2Proof/Machine/Undefined.lean ====
section
/-! DEFINITION. Undefined words (spec/60_exceptions.md R251): the error `InvalidOpcode(raw)`, after which the machine can go on. -/

namespace Sys2Proof.Machine

/-- Undefined word of category 0x0 (R77, R251). -/
def execUndefinedZero (raw : Word) (s : State) : Result := raiseError (.invalidOpcode raw) s

/-- Undefined word of category 0xE (R80, R251). -/
def execUndefinedKey (raw : Word) (s : State) : Result := raiseError (.invalidOpcode raw) s

/-- Undefined word of category 0xF (R80, R251). -/
def execUndefinedMisc (raw : Word) (s : State) : Result := raiseError (.invalidOpcode raw) s

end Sys2Proof.Machine
end

