-- ==== Sys2Proof/Machine/Dispatch.lean ====
section
/-! DEFINITION. `execute(ins)` (spec/40_execution_cycle.md R107): one arm per constructor of `Instr`, each one direct call of its meaning. -/

namespace Sys2Proof.Machine

/-- Phase 6 of a step, run with `pc` already advanced (R107). -/
def exec (i : Instr) (s : State) : Host.Outcome State Fault Refusal :=
  match i with
  | .clearScreen => Sys2Proof.Machine.execClearScreen s
  | .ret => Sys2Proof.Machine.execReturn s
  | .goto nnn => Sys2Proof.Machine.execGoto nnn s
  | .call nnn => Sys2Proof.Machine.execCall nnn s
  | .skipIfEqualConst x nn => Sys2Proof.Machine.execSkipIfEqualConst x nn s
  | .skipIfNotEqualConst x nn => Sys2Proof.Machine.execSkipIfNotEqualConst x nn s
  | .skipIfEqualReg x y => Sys2Proof.Machine.execSkipIfEqualReg x y s
  | .setConst x nn => Sys2Proof.Machine.execSetConst x nn s
  | .addConst x nn => Sys2Proof.Machine.execAddConst x nn s
  | .mathAssign x y => Sys2Proof.Machine.execMathAssign x y s
  | .mathOr x y => Sys2Proof.Machine.execMathOr x y s
  | .mathAnd x y => Sys2Proof.Machine.execMathAnd x y s
  | .mathXor x y => Sys2Proof.Machine.execMathXor x y s
  | .mathAdd x y => Sys2Proof.Machine.execMathAdd x y s
  | .mathSubtract x y => Sys2Proof.Machine.execMathSubtract x y s
  | .mathShiftRight x y => Sys2Proof.Machine.execMathShiftRight x y s
  | .mathDifference x y => Sys2Proof.Machine.execMathDifference x y s
  | .mathShiftLeft x y => Sys2Proof.Machine.execMathShiftLeft x y s
  | .skipIfNotEqualReg x y => Sys2Proof.Machine.execSkipIfNotEqualReg x y s
  | .setPointer nnn => Sys2Proof.Machine.execSetPointer nnn s
  | .relativeJump nnn => Sys2Proof.Machine.execRelativeJump nnn s
  | .random x nn => Sys2Proof.Machine.execRandom x nn s
  | .draw x y n => Sys2Proof.Machine.execDraw x y n s
  | .keyPressed x => Sys2Proof.Machine.execKeyPressed x s
  | .keyNotPressed x => Sys2Proof.Machine.execKeyNotPressed x s
  | .getDelay x => Sys2Proof.Machine.execGetDelay x s
  | .waitKeyPress x => Sys2Proof.Machine.execWaitKeyPress x s
  | .setDelay x => Sys2Proof.Machine.execSetDelay x s
  | .setSound x => Sys2Proof.Machine.execSetSound x s
  | .addPointer x => Sys2Proof.Machine.execAddPointer x s
  | .fontGlyph x => Sys2Proof.Machine.execFontGlyph x s
  | .splitNumber x => Sys2Proof.Machine.execSplitNumber x s
  | .registerDump x => Sys2Proof.Machine.execRegisterDump x s
  | .registerLoad x => Sys2Proof.Machine.execRegisterLoad x s
  | .mathUnknown _ _ sub => Sys2Proof.Machine.execMathUnknown sub s
  | .undefinedZero raw => Sys2Proof.Machine.execUndefinedZero raw s
  | .undefinedKey raw => Sys2Proof.Machine.execUndefinedKey raw s
  | .undefinedMisc raw => Sys2Proof.Machine.execUndefinedMisc raw s

end Sys2Proof.Machine
end

