-- ==== Sys2Proof/Machine/HostCalls.lean ====
section
/-! DEFINITION. The host interface: the calls that change state between steps and the reads that do not
(spec/45_keypad.md R207, R210 to R212, spec/60_exceptions.md R265 to R272, spec/70_reset_and_hazards.md R280). -/

namespace Sys2Proof.Machine

/-- The key a host code names: none for a code above 15 (R210, R266; DESIGN CHOICE, notes/assumptions/14.md). -/
def hostKey (k : Nat) : Option (Fin 16) := if h : k < 16 then some ⟨k, h⟩ else none

/-- An accepted press completes a pending wait: the code into the register, the wait cleared (R207). -/
def State.completeWait (k : Fin 16) (s : State) : State :=
  match s.wait with
  | none => s
  | some r => { s.setReg r (BitVec.ofNat 8 k.val) with wait := none }

/-- `press(k)` (R210). -/
def State.press (k : Nat) (s : State) : State :=
  match hostKey k with
  | none => { s with report := .rejected }
  | some i => ({ s with key := s.key.set i true, report := .changed (!s.key[i]) }).completeWait i

/-- `release(k)` (R211). -/
def State.release (k : Nat) (s : State) : State :=
  match hostKey k with
  | none => { s with report := .rejected }
  | some i => { s with key := s.key.set i false, report := .changed s.key[i] }

/-- A write of the quirk record (R269). -/
def State.setQuirks (q : Quirks) (s : State) : State := { s with q := q, report := .nothing }

/-- `load(bytes)`: refused whole where it does not fit (R265). -/
def State.load (bytes : List Byte) (s : State) : State :=
  if memSize < s.cfg.loadOffset + bytes.length then { s with report := .rejected }
  else { s with mem := s.mem.writeBytes s.cfg s.cfg.loadOffset bytes, report := .nothing }

/-- `reset(now)`: every field at its initial value, the quirks left as they were (R280). The parameters
and the host's own side (the coming events, the draw count, the last inputs) are not Machine State of R41 and stay (DESIGN CHOICE, notes/assumptions/20.md). -/
def State.resetAt (now : Nat) (s : State) : State :=
  { State.construct s.cfg s.q now with inp := s.inp, script := s.script, drawn := s.drawn }

/-- `is_pressed(k)`: none where the query is rejected (R212). -/
def State.isPressed (k : Nat) (s : State) : Option Bool := (hostKey k).map fun i => s.key[i]

/-- The framebuffer as the host reads it: row-major, `WIDTH × HEIGHT` booleans (R267). -/
def State.frame (s : State) : List Bool := (List.range (s.cfg.width * s.cfg.height)).map s.FB.lit

/-- The counter snapshots the host reads, delay first (R268). -/
def State.counters (s : State) : Byte × Byte := (s.DT, s.ST)

/-- "sound counter > 0 signals tone on" (R268). -/
def State.toneOn (s : State) : Bool := decide (0 < s.ST.toNat)

end Sys2Proof.Machine
end

