-- ==== Sys2Proof/Machine/Timers.lean ====
section
/-! DEFINITION. The timer subsystem: the advance that begins every live step (spec/60_exceptions.md R262). -/

namespace Sys2Proof.Machine

/-- One counter after `ticks` ticks: one down per tick, floor 0 (R262 `DT - min(DT, ticks)`). -/
def countDown (t : Byte) (ticks : Nat) : Byte := BitVec.ofNat 8 (t.toNat - min t.toNat ticks)

/-- The tick fractions accumulated at time `now`: `tacc + (now - tlast) * TICK_RATE` (R262). -/
def State.tickFractions (now : Nat) (s : State) : Nat := s.tacc + (now - s.tlast) * s.cfg.tickRate

/-- `advance_timers(now)`, for `now >= tlast` (R262). -/
def State.advanceTimers (now : Nat) (s : State) : State :=
  let ticks := s.tickFractions now / nanosPerSecond
  { s with
    tacc := s.tickFractions now % nanosPerSecond
    tlast := now
    DT := countDown s.DT ticks
    ST := countDown s.ST ticks }

end Sys2Proof.Machine
end

