-- ==== Sys2Proof/Machine/Cycle.lean ====
section
/-! DEFINITION. One call of the executor, phase by phase (spec/40_execution_cycle.md R100 to R110), and the
host's events around it (spec/00_scope.md R14, spec/60_exceptions.md R271). -/

namespace Sys2Proof.Machine

/-- `fetch()`: the big-endian word at `pc`, with the misaligned check first (R104). -/
def State.fetch (s : State) : Except FaultReason Word :=
  if s.pc.toNat % 2 = 1 then .error (.misalignedFetch s.pc)
  else if memSize < s.pc.toNat + 2 then .error (.fetchOutOfRange s.pc)
  else .ok (wordOfBytes (s.byteAt s.pc.toNat) (s.byteAt (s.pc.toNat + 1)))

/-- Draw, the only instruction the display-wait hold concerns (R106). -/
def isDraw : Instr → Bool
  | .draw _ _ _ => true
  | _ => false

/-- `hold(ins, inp)` (R106). -/
def holds (i : Instr) (s : State) : Bool := isDraw i && s.q.displayWait && !s.inp.vblank

/-- Phases 5 to 7: fetch, decode, hold, advance `pc`, execute (R100). -/
def runInstruction (s : State) : Result :=
  match s.fetch with
  | .error f => raiseFault f s
  | .ok op => if holds (decode op) s then .next { s with report := .held } else exec (decode op) s.advancePc

/-- Phases 4 to 7: a pending key-wait ends the step (R100, R103). -/
def runUnlessWaiting (s : State) : Result :=
  match s.wait with
  | some _ => .next { s with report := .waiting }
  | none => runInstruction s

/-- One step call, with its inputs in `inp` (R100, phases in order; R102, R110, R262 for a decreasing `now`). -/
def callStep (s : State) : Result :=
  match s.fault with
  | some f => .fault (.stuck f)
  | none =>
    if s.running then
      if s.inp.now < s.tlast then .fault .timeBackwards
      else runUnlessWaiting (s.advanceTimers s.inp.now)
    else .next { s with report := .halted }

/-- The inputs of a step call the host's script does not give: free, with a `now` the host's duty allows (R101, notes/assumptions/5.md). -/
def State.freeInput (s : State) : StepInput where
  now := s.tlast + Config.freeElapsed s.drawn
  vblank := Config.freeVblank s.drawn
  rand := Config.freeRand s.drawn

/-- One host event (R271): a step call with its inputs, or a host call between steps. -/
def hostEvent (e : HostEvent) (s : State) : Result :=
  match e with
  | .call inp => callStep { s with inp := inp }
  | .press k => .next (s.press k)
  | .release k => .next (s.release k)
  | .setQuirks q => .next (s.setQuirks q)
  | .load bytes => .next (s.load bytes)
  | .reset now => .next (s.resetAt now)

/-- The next event of the system: the script's first, or where it is empty a step call with free inputs
(notes/assumptions/4.md). -/
def nextEvent (s : State) : Result :=
  match s.script with
  | e :: rest => hostEvent e { s with script := rest }
  | [] => hostEvent (.call s.freeInput) { s with drawn := s.drawn + 1 }

/-- Stores one instruction word at `pc`, high byte first (R55), where a fetch can read it (R104). -/
def State.storeAtPc (w : Word) (s : State) : State :=
  if s.pc.toNat + 2 ≤ memSize then
    { s with mem := s.mem.writeBytes s.cfg s.pc.toNat [highByte w, lowByte w] }
  else s

/-- A step call at the present time in which nothing is held. -/
def State.presentCall (s : State) : HostEvent := .call { now := s.tlast, vblank := true, rand := s.inp.rand }

end Sys2Proof.Machine
end

