-- ==== Sys2Proof/Machine/Step.lean ====
section
/-! DEFINITION. The step of the whole system, and the placing of an instruction where it fetches next. -/

namespace Sys2Proof.Machine

/-- One event of the two-agent system (spec/00_scope.md R14): the host's next event, a step call among them (Machine/Cycle.lean). -/
def step (s : State) : Host.Outcome State Fault Refusal := nextEvent s

/-- `s` with a table word (Decode.lean `tableWord`) at `pc` and a step call as its next event
(notes/assumptions/11.md). -/
def State.withFetchWord (s : State) (nbits w : Nat) : State :=
  { s.storeAtPc (tableWord nbits w) with script := s.presentCall :: s.script }

end Sys2Proof.Machine
end

