-- ==== Sys2Proof/Safety.lean ====
section
/-! DEFINITION. What claims are said in: the modes (spec/60_exceptions.md R261), the invariant of every
reachable state (spec/10_state.md R42) and the end of a run (spec/70_reset_and_hazards.md R287). -/

namespace Sys2Proof.Machine

/-- The operating modes (R261). -/
inductive Mode where
  | running
  | keyWaiting
  | halted
  | faulted
  deriving DecidableEq, Repr

/-- The mode as a function of the state (R261). -/
def State.mode (s : State) : Mode :=
  if s.fault.isSome then .faulted
  else if !s.running then .halted
  else if s.wait.isSome then .keyWaiting
  else .running

/-- Reachable states: R42's five facts, what makes them inductive (a stack entry is an even address
no greater than 4096, R28 and R121), and the canonical forms of the two lists. -/
structure State.Inv (s : State) : Prop where
  cfg_wf : s.cfg.wf = true
  stack_bound : s.stack.length ≤ s.cfg.stackDepth
  stack_entries : ∀ v ∈ s.stack, v.toNat ≤ memSize ∧ v.toNat % 2 = 0
  tacc_bound : s.tacc < nanosPerSecond
  wait_running : s.wait.isSome → s.running = true
  pc_bound : s.pc.toNat ≤ 0x10FE
  mem_wf : Memory.wf s.cfg s.mem
  fb_wf : Framebuffer.wf s.cfg s.FB

/-- A run is over: the next step call answers `Stuck` or `Halted` (R287). -/
def State.runOver (s : State) : Bool := s.fault.isSome || !s.running

/-- The next event is a step call with these inputs, and `s'` is the state in which it begins. -/
def State.calls (s : State) (inp : StepInput) (s' : State) : Prop :=
  (∃ rest, s.script = .call inp :: rest ∧ s' = { s with script := rest, inp := inp }) ∨
  (s.script = [] ∧ inp = s.freeInput ∧ s' = { s with drawn := s.drawn + 1, inp := inp })

/-- The states a run can reach: construction with legal parameters (R281), a step of the system, and the
host deciding anew what it does next (R14, R272). -/
inductive Reachable : State → Prop where
  | construct (cfg : Config) (q : Quirks) (now : Nat) (h : cfg.wf = true) : Reachable (State.construct cfg q now)
  | step (s t : State) (hs : Reachable s) (h : Sys2Proof.Machine.step s = .next t) : Reachable t
  | schedule (s : State) (events : List HostEvent) (hs : Reachable s) : Reachable { s with script := events }

end Sys2Proof.Machine
end

