-- ==== Sys2Proof/Certificates/Slice0/Obligations.lean ====
section
/-! DEFINITION. The statements about the model, each from a rule of spec/. The helpers under
Sys2Proof.Claims say, in the spec's own arithmetic over naturals, what several statements share. `D<n>` is a decision of
spec/92_eei_decisions.md. A `decode` clause gives the encoding line of the instruction's rule; `report` and `script` are fields of the
model's own (notes/assumptions/3.md, 4.md). -/

namespace Sys2Proof.Claims

open Sys2Proof.Machine

/-- The word of format `A` (spec/30_encoding.md R72): `c*2^12 + nnn`. -/
def wordA (c : Nat) (nnn : BitVec 12) : Word := BitVec.ofNat 16 (c * 4096 + nnn.toNat)

/-- The word of format `RB` (R72): `c*2^12 + x*2^8 + nn`. -/
def wordRB (c : Nat) (x : RegIdx) (nn : Byte) : Word := BitVec.ofNat 16 (c * 4096 + x.val * 256 + nn.toNat)

/-- The word of format `RRN` (R72): `c*2^12 + x*2^8 + y*2^4 + n`. -/
def wordRRN (c : Nat) (x y : RegIdx) (n : Nat) : Word := BitVec.ofNat 16 (c * 4096 + x.val * 256 + y.val * 16 + n)

/-- The word of format `RF` (R72): `c*2^12 + x*2^8 + f`. -/
def wordRF (c : Nat) (x : RegIdx) (f : Nat) : Word := BitVec.ofNat 16 (c * 4096 + x.val * 256 + f)

/-- Registers `vs` are those of `s` after a result `r` into `V[x]` and a flag `f` into `VF`, in the
parameter's write order; every other register is as before (spec/43_math.md R151). -/
def resultAndFlag (s : State) (vs : Vector Byte 16) (x : RegIdx) (r f : Nat) : Prop :=
  (x ≠ VF → vs[x].toNat = r ∧ vs[VF].toNat = f) ∧
  (x = VF → vs[VF].toNat = if s.cfg.flagLast then f else r) ∧
  ∀ k : RegIdx, k ≠ x → k ≠ VF → vs[k] = s.V[k]

/-- Registers `vs` are those of `s` but for `V[x]`, which is `r`. -/
def onlyResult (s : State) (vs : Vector Byte 16) (x : RegIdx) (r : Nat) : Prop :=
  vs[x].toNat = r ∧ ∀ k : RegIdx, k ≠ x → vs[k] = s.V[k]

/-- `i` completes and changes the general registers alone, to ones with `p`. -/
def writesRegs (i : Instr) (s : State) (p : Vector Byte 16 → Prop) : Prop :=
  ∃ vs, exec i s = .next { s with V := vs, report := .ok } ∧ p vs

/-- `i` completes and changes `pc` alone, by a further 2 (modulo 2^16) exactly when `c` holds (spec/41_control_flow.md R123). -/
def skipsExactlyWhen (i : Instr) (s : State) (c : Prop) : Prop :=
  ∃ p, exec i s = .next { s with pc := p, report := .ok } ∧
    (c → p.toNat = (s.pc.toNat + 2) % 65536) ∧ (¬c → p = s.pc)

/-- `i` records the fault `f` and changes nothing else (spec/60_exceptions.md R254). -/
def onlyRecords (i : Instr) (s : State) (f : FaultReason) : Prop :=
  exec i s = .next { s with fault := some f, report := .fault f }

/-- Bitwise `i` with result `r`: `VF` is cleared only under the quirk (spec/43_math.md R153). -/
def bitwiseEffect (i : Instr) (s : State) (x : RegIdx) (r : Nat) : Prop :=
  writesRegs i s fun vs => if s.q.flagReset then resultAndFlag s vs x r 0 else onlyResult s vs x r

/-- Bit `c` of sprite row `r`, leftmost first, is set and its pixel is drawn at column `px`, row `py`
(spec/44_display.md R184 to R186). -/
def spriteBitLands (s : State) (x0 y0 r c px py : Nat) : Bool :=
  (s.byteAt (s.I.toNat + r)).getLsbD (7 - c) &&
    (if s.q.partialWrap then x0 + c == px && y0 + r == py
     else (x0 + c) % s.cfg.width == px && (y0 + r) % s.cfg.height == py)

/-- How many set bits of the sprite of `n` rows at `I` land on column `px`, row `py`. -/
def spriteHits (s : State) (x0 y0 n px py : Nat) : Nat :=
  ((List.range n).map fun r => (List.range 8).countP fun c => spriteBitLands s x0 y0 r c px py).sum

/-- The initial value of every field (spec/10_state.md R41), at host time `now`. -/
def initialValues (t : State) (now : Nat) : Prop :=
  (∀ a, t.byteAt a = if t.cfg.fontBase ≤ a ∧ a < t.cfg.fontBase + 80 then t.cfg.fontData.getD (a - t.cfg.fontBase) 0 else 0) ∧
  (∀ k : RegIdx, t.V[k] = 0) ∧ t.I = 0 ∧ t.pc.toNat = t.cfg.loadOffset ∧ t.stack = [] ∧
  t.running = true ∧ t.wait = none ∧ t.fault = none ∧
  (∀ px py, t.pixel px py = false) ∧ (∀ k : Fin 16, t.key[k] = false) ∧
  t.DT = 0 ∧ t.ST = 0 ∧ t.tacc = 0 ∧ t.tlast = now

/-- The registers an instruction may write (spec/10_state.md R21, R22). -/
def mayWriteReg (q : Quirks) (i : Instr) (k : RegIdx) : Prop :=
  match i with
  | .setConst x _ | .addConst x _ | .random x _ | .mathAssign x _ | .getDelay x => k = x
  | .mathOr x _ | .mathAnd x _ | .mathXor x _ => k = x ∨ (q.flagReset ∧ k = VF)
  | .mathAdd x _ | .mathSubtract x _ | .mathDifference x _ | .mathShiftRight x _ | .mathShiftLeft x _ => k = x ∨ k = VF
  | .draw _ _ _ => k = VF
  | .registerLoad x => k.val ≤ x.val
  | .clearScreen | .ret | .goto _ | .call _ | .skipIfEqualConst _ _ | .skipIfNotEqualConst _ _
  | .skipIfEqualReg _ _ | .skipIfNotEqualReg _ _ | .setPointer _ | .relativeJump _ | .keyPressed _
  | .keyNotPressed _ | .waitKeyPress _ | .setDelay _ | .setSound _ | .addPointer _ | .fontGlyph _
  | .splitNumber _ | .registerDump _ | .mathUnknown _ _ _ | .undefinedZero _ | .undefinedKey _
  | .undefinedMisc _ => False

/-- The byte at `a` after `len` bytes are stored from `I` on, the `k`-th of them `value k` (spec/20_memory.md R57). -/
def overlaid (s : State) (len : Nat) (value : Nat → Nat) (a : Nat) : Nat :=
  if s.I.toNat ≤ a ∧ a < s.I.toNat + len then value (a - s.I.toNat) else (s.byteAt a).toNat

/-- `i` completes with `pc` as it was, and the next fetch gives the word of the bytes `byte` at `pc` (spec/20_memory.md R55). -/
def fetchesNext (i : Instr) (s : State) (byte : Nat → Nat) : Prop :=
  ∃ t op, exec i s = .next t ∧ t.pc = s.pc ∧ t.fetch = .ok op ∧
    op.toNat = byte s.pc.toNat * 256 + byte (s.pc.toNat + 1)

/-- The state a live step call reaches before phase 4: the inputs taken, the timers advanced (spec/40_execution_cycle.md R100). -/
def begun (s0 : State) (inp : StepInput) : State := s0.advanceTimers inp.now

end Sys2Proof.Claims

open Sys2Proof Sys2Proof.Machine Sys2Proof.Claims

/-! ### Encoding -/

/-- spec/30_encoding.md R76 to R80: the decoding function, pattern by pattern, with every field at every
value and every other word of the four open categories undefined.
The numeric patterns are the spec's decision D1, the ignored nibbles D2, the undefined zero words D3. -/
def Obligations.OpcodePatternsDecode : Prop :=
  (∀ (x y : RegIdx) (n : Fin 16) (nn : Byte) (nnn : BitVec 12),
    decode 0x00E0 = .clearScreen ∧ decode 0x00EE = .ret ∧
    decode (wordA 1 nnn) = .goto nnn ∧ decode (wordA 2 nnn) = .call nnn ∧
    decode (wordRB 3 x nn) = .skipIfEqualConst x nn ∧ decode (wordRB 4 x nn) = .skipIfNotEqualConst x nn ∧
    decode (wordRRN 5 x y n.val) = .skipIfEqualReg x y ∧
    decode (wordRB 6 x nn) = .setConst x nn ∧ decode (wordRB 7 x nn) = .addConst x nn ∧
    decode (wordRRN 8 x y 0) = .mathAssign x y ∧ decode (wordRRN 8 x y 1) = .mathOr x y ∧
    decode (wordRRN 8 x y 2) = .mathAnd x y ∧ decode (wordRRN 8 x y 3) = .mathXor x y ∧
    decode (wordRRN 8 x y 4) = .mathAdd x y ∧ decode (wordRRN 8 x y 5) = .mathSubtract x y ∧
    decode (wordRRN 8 x y 6) = .mathShiftRight x y ∧ decode (wordRRN 8 x y 7) = .mathDifference x y ∧
    decode (wordRRN 8 x y 0xE) = .mathShiftLeft x y ∧
    decode (wordRRN 9 x y n.val) = .skipIfNotEqualReg x y ∧
    decode (wordA 0xA nnn) = .setPointer nnn ∧ decode (wordA 0xB nnn) = .relativeJump nnn ∧
    decode (wordRB 0xC x nn) = .random x nn ∧ decode (wordRRN 0xD x y n.val) = .draw x y n ∧
    decode (wordRF 0xE x 0x9E) = .keyPressed x ∧ decode (wordRF 0xE x 0xA1) = .keyNotPressed x ∧
    decode (wordRF 0xF x 0x07) = .getDelay x ∧ decode (wordRF 0xF x 0x0A) = .waitKeyPress x ∧
    decode (wordRF 0xF x 0x15) = .setDelay x ∧ decode (wordRF 0xF x 0x18) = .setSound x ∧
    decode (wordRF 0xF x 0x1E) = .addPointer x ∧ decode (wordRF 0xF x 0x29) = .fontGlyph x ∧
    decode (wordRF 0xF x 0x33) = .splitNumber x ∧ decode (wordRF 0xF x 0x55) = .registerDump x ∧
    decode (wordRF 0xF x 0x65) = .registerLoad x) ∧
  (∀ nnn : BitVec 12, nnn.toNat ≠ 0x0E0 → nnn.toNat ≠ 0x0EE →
    decode (wordA 0 nnn) = .undefinedZero (wordA 0 nnn)) ∧
  (∀ (x y : RegIdx) (n : Fin 16), (8 ≤ n.val ∧ n.val ≠ 0xE) →
    decode (wordRRN 8 x y n.val) = .mathUnknown x y (BitVec.ofNat 4 n.val)) ∧
  (∀ (x : RegIdx) (f : Byte), f.toNat ∉ [0x9E, 0xA1] →
    decode (wordRF 0xE x f.toNat) = .undefinedKey (wordRF 0xE x f.toNat)) ∧
  (∀ (x : RegIdx) (f : Byte), f.toNat ∉ [0x07, 0x0A, 0x15, 0x18, 0x1E, 0x29, 0x33, 0x55, 0x65] →
    decode (wordRF 0xF x f.toNat) = .undefinedMisc (wordRF 0xF x f.toNat))

/-- spec/30_encoding.md R83: decoding undoes encoding for exactly the instructions the decoder can return, with
every operand at every value; encoding undoes decoding but for the ignored nibble of categories 0x5 and 0x9.
R83 is marked by the spec as its own inference; the word of an ill-formed term is left out (notes/assumptions/13.md). -/
def Obligations.DecodeAndEncodeAgree : Prop :=
  (∀ i : Instr, i.wf = true ↔ ∃ w, decode w = i) ∧
  (∀ i : Instr, i.wf = true → decode (encode i) = i) ∧
  (∀ w : Word, encode (decode w) =
    if w.toNat / 4096 = 5 ∨ w.toNat / 4096 = 9 then BitVec.ofNat 16 (w.toNat / 16 * 16) else w) ∧
  (∀ w w' : Word, decode w = decode w' ↔
    w = w' ∨ ((w.toNat / 4096 = 5 ∨ w.toNat / 4096 = 9) ∧ w.toNat / 16 = w'.toNat / 16)) ∧
  (∀ (x y : RegIdx) (n : BitVec 4) (raw : Word),
    encode (.skipIfEqualReg x y) = wordRRN 5 x y 0 ∧ encode (.skipIfNotEqualReg x y) = wordRRN 9 x y 0 ∧
    encode (.undefinedZero raw) = raw ∧ encode (.undefinedKey raw) = raw ∧ encode (.undefinedMisc raw) = raw ∧
    encode (.mathUnknown x y n) = wordRRN 8 x y n.toNat)

/-- Words written out from the patterns of spec/30_encoding.md R84, one of each format and the undefined ones.
The patterns are the spec's decision D1. -/
def Obligations.SampleWordsDecode : Prop :=
  decode 0x00E0 = .clearScreen ∧ decode 0x1ABC = .goto 0xABC ∧ decode 0x3A7F = .skipIfEqualConst 0xA 0x7F ∧
  decode 0x512F = .skipIfEqualReg 1 2 ∧ decode 0x8ABE = .mathShiftLeft 0xA 0xB ∧
  decode 0x8AB8 = .mathUnknown 0xA 0xB 0x8 ∧ decode 0xD125 = .draw 1 2 5 ∧ decode 0xF133 = .splitNumber 1 ∧
  decode 0xE19F = .undefinedKey 0xE19F ∧ decode 0x0123 = .undefinedZero 0x0123 ∧ decode 0xFFFF = .undefinedMisc 0xFFFF

/-! ### The step -/

/-- spec/40_execution_cycle.md R100, phases 5 and 6: in running mode, a step call whose fetch succeeds and that is not held
executes the decoded instruction, after the timers have advanced and `pc` has moved past the word.
The order of the phases that the source leaves open is decisions D6 and D7; step calls as events are the model's (notes/assumptions/4.md). -/
def Obligations.StepRunsDecodedInstruction : Prop :=
  ∀ (s s0 : State) (inp : StepInput), s.calls inp s0 → s.mode = .running → s.tlast ≤ inp.now →
    s.pc.toNat % 2 = 0 → s.pc.toNat + 2 ≤ 4096 →
    ∀ (hi lo : Byte), s.byteAt s.pc.toNat = hi → s.byteAt (s.pc.toNat + 1) = lo →
    ∀ i : Instr, decode (BitVec.ofNat 16 (hi.toNat * 256 + lo.toNat)) = i →
      ((∃ x y n, i = .draw x y n) → s.q.displayWait = true → inp.vblank = true) →
      step s = exec i { begun s0 inp with pc := s.pc + 2 }

/-- spec/40_execution_cycle.md R102: a faulted machine has no step, and a step on a halted one changes nothing (the
report and the host's own side apart), whatever the inputs.
Decisions D7 and D39; that the absence of a transition is a `Fault`, and the `report` field, are the model's (notes/assumptions/1.md, 3.md). -/
def Obligations.StoppedMachineTakesNoStep : Prop :=
  ∀ (s s0 : State) (inp : StepInput), s.calls inp s0 →
    (∀ f, s.fault = some f → step s = .fault (.stuck f)) ∧
    (s.fault = none → s.running = false → step s = .next { s0 with report := .halted })

/-- spec/40_execution_cycle.md R103: in key-wait mode a step call advances the timers and stops. No fetch, no decode, `pc`
unchanged. And no step call leaves the mode.
The `report` field is the model's (notes/assumptions/3.md). -/
def Obligations.KeyWaitStepAdvancesTimersOnly : Prop :=
  ∀ (s s0 : State) (inp : StepInput), s.calls inp s0 → s.mode = .keyWaiting → s.tlast ≤ inp.now →
    ∃ t, step s = .next t ∧ t = { begun s0 inp with report := .waiting } ∧ t.pc = s.pc ∧ t.wait = s.wait ∧ t.mode = .keyWaiting

/-- spec/45_keypad.md R207, spec/60_exceptions.md R261: a pending wait ends only by an accepted press, or by reset.
Host calls as events are the model's (notes/assumptions/4.md). -/
def Obligations.KeyWaitEndsOnlyByPressOrReset : Prop :=
  ∀ (s t : State) (r : RegIdx), s.wait = some r → step s = .next t → t.wait ≠ some r →
    (∃ k rest, k ≤ 15 ∧ s.script = .press k :: rest ∧ t.wait = none) ∨ (∃ now rest, s.script = .reset now :: rest)

/-- spec/40_execution_cycle.md R104: the fetch is big-endian and checks the low bit of `pc` first and then the end of the store; a
step call whose fetch fails records the fault, with `pc` at the faulting address.
The two checks are the spec's decision D8. -/
def Obligations.FetchIsBigEndianAndChecked : Prop :=
  (∀ s : State,
    (s.pc.toNat % 2 = 1 → s.fetch = .error (.misalignedFetch s.pc)) ∧
    (s.pc.toNat % 2 = 0 → 4096 < s.pc.toNat + 2 → s.fetch = .error (.fetchOutOfRange s.pc)) ∧
    (s.pc.toNat % 2 = 0 → s.pc.toNat + 2 ≤ 4096 → ∃ op, s.fetch = .ok op ∧
      op.toNat = (s.byteAt s.pc.toNat).toNat * 256 + (s.byteAt (s.pc.toNat + 1)).toNat)) ∧
  (∀ (s s0 : State) (inp : StepInput) (f : FaultReason), s.calls inp s0 → s.mode = .running → s.tlast ≤ inp.now →
    s.fetch = .error f →
    ∃ t, step s = .next t ∧ t = { begun s0 inp with fault := some f, report := .fault f } ∧ t.pc = s.pc)

/-- spec/40_execution_cycle.md R106: the display-wait hold is exactly a Draw, with the quirk set and no vertical blank. A held step
advances the timers and does nothing more, so the same Draw is fetched again.
The hold is the spec's decision D19. -/
def Obligations.DisplayWaitHoldsExactlyDraw : Prop :=
  (∀ (i : Instr) (s : State),
    holds i s = true ↔ (∃ x y n, i = .draw x y n) ∧ s.q.displayWait = true ∧ s.inp.vblank = false) ∧
  (∀ (s s0 : State) (inp : StepInput) (op : Word), s.calls inp s0 → s.mode = .running → s.tlast ≤ inp.now →
    s.fetch = .ok op → (∃ x y n, decode op = .draw x y n) → s.q.displayWait = true → inp.vblank = false →
    ∃ t, step s = .next t ∧ t = { begun s0 inp with report := .held } ∧ t.pc = s.pc ∧ t.fetch = .ok op)

/-! ### Timers -/

/-- spec/60_exceptions.md R262: the advance in exact integers, and no transition for a live step call whose `now` is earlier than
the last.
The integer form is decision D28; no transition is decision D29, a `Fault` here (notes/assumptions/2.md). -/
def Obligations.TimersAdvanceByWholeTicks : Prop :=
  (∀ (s : State) (now : Nat), s.tlast ≤ now →
    ∃ (ticks acc : Nat) (dt st : Byte),
      s.advanceTimers now = { s with tacc := acc, tlast := now, DT := dt, ST := st } ∧
      ticks * 1000000000 + acc = s.tacc + (now - s.tlast) * s.cfg.tickRate ∧ acc < 1000000000 ∧
      dt.toNat = s.DT.toNat - min s.DT.toNat ticks ∧ st.toNat = s.ST.toNat - min s.ST.toNat ticks) ∧
  (∀ (s s0 : State) (inp : StepInput), s.calls inp s0 → s.fault = none → s.running = true → inp.now < s.tlast →
    step s = .fault .timeBackwards)

/-- spec/60_exceptions.md R262, R263: no drift. Advancing to `t1` and then to `t2` is advancing to `t2` at once, in every field;
and 1000 ms at 60 ticks a second take each counter down by 60, floor 0, with the carry as it was. -/
def Obligations.TimerAdvanceHasNoDrift : Prop :=
  (∀ (s : State) (t1 t2 : Nat), s.tlast ≤ t1 → t1 ≤ t2 →
    (s.advanceTimers t1).advanceTimers t2 = s.advanceTimers t2) ∧
  (∀ s : State, s.cfg.tickRate = 60 → s.tacc < 1000000000 →
    (s.advanceTimers (s.tlast + 1000000000)).DT.toNat = s.DT.toNat - 60 ∧
    (s.advanceTimers (s.tlast + 1000000000)).ST.toNat = s.ST.toNat - 60 ∧
    (s.advanceTimers (s.tlast + 1000000000)).tacc = s.tacc)

/-! ### Invariants and whole-machine rules -/

/-- Every event of the system keeps the invariant (Safety.lean `State.Inv`): R42's facts and the canonical forms.
The canonical forms are the model's (notes/assumptions/9.md, 10.md). -/
def Obligations.StepKeepsInv : Prop :=
  ∀ s t : State, s.Inv → step s = .next t → t.Inv

/-- Construction with legal parameters meets the invariant, `State.reset` among them.
What a legal parameter is, is the model's `Config.wf` (notes/assumptions/18.md); the quirks and time of `State.reset` are too (notes/assumptions/7.md). -/
def Obligations.ConstructionMeetsInv : Prop :=
  (∀ (cfg : Config) (q : Quirks) (now : Nat), cfg.wf = true → (State.construct cfg q now).Inv) ∧ State.reset.Inv

/-- spec/10_state.md R42: the invariants of every reachable state.
R42 is marked by the spec as derived from its other rules. -/
def Obligations.ReachableStatesMeetR42 : Prop :=
  ∀ s : State, Reachable s →
    s.stack.length ≤ s.cfg.stackDepth ∧ s.DT.toNat ≤ 255 ∧ s.ST.toNat ≤ 255 ∧ s.tacc < 1000000000 ∧
    (∀ r, s.wait = some r → s.running = true) ∧ s.pc.toNat ≤ 0x10FE

/-- spec/10_state.md R37, R38: only reset clears a fault, only reset sets `running`, and only Return on an empty stack clears it.
The recorded fault is decision D39; host calls as events are the model's (notes/assumptions/4.md). -/
def Obligations.StoppedStaysStoppedUntilReset : Prop :=
  ∀ s t : State, step s = .next t →
    (∀ f, s.fault = some f → t.fault = some f ∨ ∃ now rest, s.script = .reset now :: rest) ∧
    (s.running = false → t.running = false ∨ ∃ now rest, s.script = .reset now :: rest) ∧
    (s.running = true → t.running = false →
      s.stack = [] ∧ (∃ op, s.fetch = .ok op ∧ decode op = .ret) ∧ t.report = .err .invalidState)

/-- The quirks change only by the host's write (spec/10_state.md R39), the key states only by press, release and reset (R36), and the
parameters never. That reset keeps the quirks is decision D32. Parameters that nothing writes are the model's choice
(notes/assumptions/6.md), and so are host calls as events (notes/assumptions/4.md). -/
def Obligations.HostAloneWritesQuirksAndKeys : Prop :=
  ∀ s t : State, step s = .next t →
    t.cfg = s.cfg ∧
    (t.q ≠ s.q → ∃ rest, s.script = .setQuirks t.q :: rest) ∧
    (t.key ≠ s.key → (∃ k rest, s.script = .press k :: rest) ∨ (∃ k rest, s.script = .release k :: rest) ∨
      (∃ now rest, s.script = .reset now :: rest))

/-- spec/10_state.md R22 (with R21's flag writers): the general registers each instruction may write, and the key-wait completion's.
R22 is marked by the spec as derived. -/
def Obligations.OnlyListedRegistersAreWritten : Prop :=
  (∀ (i : Instr) (s t : State), exec i s = .next t → ∀ k : RegIdx, ¬mayWriteReg s.q i k → t.V[k] = s.V[k]) ∧
  (∀ (s : State) (k : Nat) (j : RegIdx), s.wait ≠ some j → (s.press k).V[j] = s.V[j])

/-- The frame of every instruction outside the general registers, `pc` and the report (spec/10_state.md R23, R27, R31, R36, R37, R38,
R39; spec/20_memory.md R53; spec/44_display.md R180; spec/60_exceptions.md R253): which of them may change what. Which bytes a store
changes is said by `SplitNumberStoresDigits` and `RegisterDumpStoresRegisters`. The clauses on `inp` and `drawn` are about fields of the
model's own (notes/assumptions/5.md), those on `cfg` and `script` rest on notes/assumptions/6.md and 4.md. -/
def Obligations.InstructionsWriteOnlyTheirState : Prop :=
  ∀ (i : Instr) (s t : State), exec i s = .next t →
    (t.I ≠ s.I → (∃ nnn, i = .setPointer nnn) ∨ (∃ x, i = .addPointer x) ∨ (∃ x, i = .fontGlyph x) ∨
      (s.q.memSetsPointer = true ∧ ((∃ x, i = .registerDump x) ∨ ∃ x, i = .registerLoad x))) ∧
    (t.stack ≠ s.stack → i = .ret ∨ ∃ nnn, i = .call nnn) ∧
    (t.mem ≠ s.mem → (∃ x, i = .splitNumber x) ∨ ∃ x, i = .registerDump x) ∧
    (t.FB ≠ s.FB → i = .clearScreen ∨ ∃ x y n, i = .draw x y n) ∧
    (t.DT ≠ s.DT → ∃ x, i = .setDelay x) ∧
    (t.ST ≠ s.ST → ∃ x, i = .setSound x) ∧
    (t.wait ≠ s.wait → ∃ x, i = .waitKeyPress x) ∧
    (t.running ≠ s.running → i = .ret) ∧
    (t.fault ≠ s.fault → (∃ nnn, i = .call nnn) ∨ (∃ x y n, i = .draw x y n) ∨ (∃ x, i = .keyPressed x) ∨
      (∃ x, i = .keyNotPressed x) ∨ (∃ x, i = .fontGlyph x) ∨ (∃ x, i = .splitNumber x) ∨
      (∃ x, i = .registerDump x) ∨ ∃ x, i = .registerLoad x) ∧
    t.cfg = s.cfg ∧ t.q = s.q ∧ t.key = s.key ∧ t.tacc = s.tacc ∧ t.tlast = s.tlast ∧
    t.inp = s.inp ∧ t.script = s.script ∧ t.drawn = s.drawn

/-- spec/10_state.md R31, "No instruction reads `ST`": another sound counter changes no instruction's result but itself. -/
def Obligations.NoInstructionReadsSoundTimer : Prop :=
  ∀ (i : Instr) (s : State) (b : Byte), ∃ t,
    exec i s = .next t ∧
    ((∃ x, i = .setSound x) → exec i { s with ST := b } = .next t) ∧
    ((∀ x, i ≠ .setSound x) → exec i { s with ST := b } = .next { t with ST := b })

/-- spec/40_execution_cycle.md R101: the step's inputs reach no instruction but Random, and Random only through `rand`. -/
def Obligations.StepInputsReachOnlyRandom : Prop :=
  ∀ (i : Instr) (s : State) (inp : StepInput), ((∃ x nn, i = .random x nn) → inp.rand = s.inp.rand) →
    ∃ t, exec i s = .next t ∧ exec i { s with inp := inp } = .next { t with inp := inp }

/-- spec/10_state.md R32, R37, R40: what is hidden from programs (the timer bookkeeping, `running`, `fault`, the pending wait) does not
influence what an instruction does to anything else. -/
def Obligations.HiddenStateIsUnobservable : Prop :=
  ∀ (i : Instr) (s : State) (acc last : Nat) (run : Bool) (w : Option RegIdx) (f : Option FaultReason),
    ∃ t t', exec i s = .next t ∧
      exec i { s with tacc := acc, tlast := last, running := run, wait := w, fault := f } = .next t' ∧
      t'.V = t.V ∧ t'.I = t.I ∧ t'.pc = t.pc ∧ t'.stack = t.stack ∧ t'.mem = t.mem ∧ t'.FB = t.FB ∧
      t'.DT = t.DT ∧ t'.ST = t.ST ∧ t'.report = t.report

/-! ### Control flow -/

/-- spec/41_control_flow.md R120. -/
def Obligations.GotoSetsPc : Prop :=
  ∀ (nnn : BitVec 12) (s : State), decode (wordA 1 nnn) = .goto nnn ∧
    ∃ p, exec (.goto nnn) s = .next { s with pc := p, report := .ok } ∧ p.toNat = nnn.toNat ∧
      (nnn.toNat % 2 = 1 ∨ 0xFFE < nnn.toNat → ∃ f, ({ s with pc := p } : State).fetch = .error f)

/-- spec/41_control_flow.md R128.
The nibble position is the spec's decision D35. -/
def Obligations.RelativeJumpAddsRegister : Prop :=
  ∀ (nnn : BitVec 12) (s : State), decode (wordA 0xB nnn) = .relativeJump nnn ∧
    ∃ (p : Word) (r : RegIdx), exec (.relativeJump nnn) s = .next { s with pc := p, report := .ok } ∧
      p.toNat = nnn.toNat + s.V[r].toNat ∧ p.toNat ≤ 0x10FE ∧
      r.val = (if s.q.altJumpRegister then nnn.toNat / 256 else 0) ∧
      (p.toNat % 2 = 1 ∨ 0xFFE < p.toNat → ∃ f, ({ s with pc := p } : State).fetch = .error f)

/-- spec/41_control_flow.md R122 with spec/10_state.md R29: the saved value is the advanced `pc`, and a full stack is a fault that
leaves stack and `pc` unchanged.
The saved value is decision D6, the full stack D10. -/
def Obligations.CallPushesAdvancedPc : Prop :=
  ∀ (nnn : BitVec 12) (s : State), decode (wordA 2 nnn) = .call nnn ∧
    (s.stack.length ≠ s.cfg.stackDepth →
      ∃ p, exec (.call nnn) s = .next { s with stack := s.stack ++ [s.pc], pc := p, report := .ok } ∧ p.toNat = nnn.toNat) ∧
    (s.stack.length = s.cfg.stackDepth → onlyRecords (.call nnn) s (.stackOverflow s.pc))

/-- spec/41_control_flow.md R121 with spec/10_state.md R30 and spec/60_exceptions.md R255: Return pops the last entry; on an empty
stack only `running` changes and the error is reported.
That `pc` stays past the Return on an empty stack is decision D45. -/
def Obligations.ReturnPopsOrHalts : Prop :=
  ∀ s : State, decode 0x00EE = .ret ∧
    (∀ (below : List Word) (v : Word), s.stack = below ++ [v] →
      exec .ret s = .next { s with stack := below, pc := v, report := .ok }) ∧
    (s.stack = [] → exec .ret s = .next { s with running := false, report := .err .invalidState })

/-- A Call and then a Return come back to the instruction after the Call with the stack as it was, whatever lies between target
and return as long as it leaves the stack alone (spec/41_control_flow.md R121, R122). -/
def Obligations.ReturnUndoesCall : Prop :=
  ∀ (nnn : BitVec 12) (s t u : State), s.stack.length < s.cfg.stackDepth → exec (.call nnn) s = .next t → u.stack = t.stack →
    exec .ret u = .next { u with stack := s.stack, pc := s.pc, report := .ok }

/-- spec/41_control_flow.md R123 to R127: the four skips on constants and registers. The low nibble `n` of the register forms is ignored.
The ignored nibble is decision D2. -/
def Obligations.SkipsCompareRegisters : Prop :=
  ∀ (x y : RegIdx) (n : Fin 16) (nn : Byte) (s : State),
    decode (wordRB 3 x nn) = .skipIfEqualConst x nn ∧ decode (wordRB 4 x nn) = .skipIfNotEqualConst x nn ∧
    decode (wordRRN 5 x y n.val) = .skipIfEqualReg x y ∧ decode (wordRRN 9 x y n.val) = .skipIfNotEqualReg x y ∧
    skipsExactlyWhen (.skipIfEqualConst x nn) s (s.V[x].toNat = nn.toNat) ∧
    skipsExactlyWhen (.skipIfNotEqualConst x nn) s (s.V[x].toNat ≠ nn.toNat) ∧
    skipsExactlyWhen (.skipIfEqualReg x y) s (s.V[x].toNat = s.V[y].toNat) ∧
    skipsExactlyWhen (.skipIfNotEqualReg x y) s (s.V[x].toNat ≠ s.V[y].toNat)

/-! ### Registers and constants, math -/

/-- spec/42_register_constant.md R140, R141: assignment and wrapping addition, with no flag side effect. -/
def Obligations.ConstantsSetAndAdd : Prop :=
  ∀ (x : RegIdx) (nn : Byte) (s : State),
    decode (wordRB 6 x nn) = .setConst x nn ∧ decode (wordRB 7 x nn) = .addConst x nn ∧
    writesRegs (.setConst x nn) s (fun vs => onlyResult s vs x nn.toNat) ∧
    writesRegs (.addConst x nn) s (fun vs => onlyResult s vs x ((s.V[x].toNat + nn.toNat) % 256))

/-- spec/42_register_constant.md R142: the step's random byte masked by the constant, for every draw.
The meaning is the spec's decision D27. -/
def Obligations.RandomMasksTheDraw : Prop :=
  ∀ (x : RegIdx) (nn : Byte) (s : State), decode (wordRB 0xC x nn) = .random x nn ∧
    writesRegs (.random x nn) s (fun vs => onlyResult s vs x (s.inp.rand.toNat &&& nn.toNat) ∧
      (nn = 0 → vs[x] = 0) ∧ (nn = 0xFF → vs[x] = s.inp.rand))

/-- spec/43_math.md R152 to R156: Assign, and the bitwise operations, which clear `VF` only under the quirk. -/
def Obligations.AssignAndBitwise : Prop :=
  ∀ (x y : RegIdx) (s : State),
    decode (wordRRN 8 x y 0) = .mathAssign x y ∧ decode (wordRRN 8 x y 1) = .mathOr x y ∧
    decode (wordRRN 8 x y 2) = .mathAnd x y ∧ decode (wordRRN 8 x y 3) = .mathXor x y ∧
    writesRegs (.mathAssign x y) s (fun vs => onlyResult s vs x s.V[y].toNat) ∧
    bitwiseEffect (.mathOr x y) s x (s.V[x].toNat ||| s.V[y].toNat) ∧
    bitwiseEffect (.mathAnd x y) s x (s.V[x].toNat &&& s.V[y].toNat) ∧
    bitwiseEffect (.mathXor x y) s x (s.V[x].toNat ^^^ s.V[y].toNat)

/-- spec/43_math.md R157: the sum mod 256, and a flag that says both that the sum passed 255 and that the result is below the old destination. -/
def Obligations.AddSetsCarry : Prop :=
  ∀ (x y : RegIdx) (s : State) (a b r f : Nat), a = s.V[x].toNat → b = s.V[y].toNat → r = (a + b) % 256 →
    f = (if 256 ≤ a + b then 1 else 0) →
    decode (wordRRN 8 x y 4) = .mathAdd x y ∧ (f = 1 ↔ r < a) ∧
    writesRegs (.mathAdd x y) s (fun vs => resultAndFlag s vs x r f)

/-- spec/43_math.md R158: the flag is 1 exactly when `a > (a - b) mod 256`, that is when `1 <= b <= a`.
The formula wins over its gloss: spec/90_conflicts.md C1, decision D11. -/
def Obligations.SubtractSetsFlagByFormula : Prop :=
  ∀ (x y : RegIdx) (s : State) (a b r f : Nat), a = s.V[x].toNat → b = s.V[y].toNat → r = (a + 256 - b) % 256 →
    f = (if r < a then 1 else 0) →
    decode (wordRRN 8 x y 5) = .mathSubtract x y ∧ (f = 1 ↔ 1 ≤ b ∧ b ≤ a) ∧
    writesRegs (.mathSubtract x y) s (fun vs => resultAndFlag s vs x r f)

/-- spec/43_math.md R161, R162: `V[y] - V[x]` mod 256 and the flag of each of the parameter's three readings. -/
def Obligations.DifferenceUnderEachReading : Prop :=
  ∀ (x y : RegIdx) (s : State) (a b r f : Nat), a = s.V[x].toNat → b = s.V[y].toNat → r = (b + 256 - a) % 256 →
    (s.cfg.differenceFlag = .destLess → f = (if a < r then 1 else 0)) →
    (s.cfg.differenceFlag = .destLessEq → f = (if a ≤ r then 1 else 0)) →
    (s.cfg.differenceFlag = .minuendGreater → f = (if 1 ≤ a ∧ a ≤ b then 1 else 0)) →
    decode (wordRRN 8 x y 7) = .mathDifference x y ∧ (r < b ↔ 1 ≤ a ∧ a ≤ b) ∧
    writesRegs (.mathDifference x y) s (fun vs => resultAndFlag s vs x r f)

/-- spec/43_math.md R159, R160, R163: shifts by one of the operand the quirk selects, the bit shifted out in the flag.
Which setting selects which register is decision D13, the distance D14. -/
def Obligations.ShiftsMoveOneBit : Prop :=
  ∀ (x y : RegIdx) (s : State) (v : Nat), v = (if s.q.altShiftSource then s.V[y].toNat else s.V[x].toNat) →
    decode (wordRRN 8 x y 6) = .mathShiftRight x y ∧ decode (wordRRN 8 x y 0xE) = .mathShiftLeft x y ∧
    writesRegs (.mathShiftRight x y) s (fun vs => resultAndFlag s vs x (v / 2) (v % 2)) ∧
    writesRegs (.mathShiftLeft x y) s (fun vs => resultAndFlag s vs x (v * 2 % 256) (v / 128))

/-! ### Errors -/

/-- spec/43_math.md R164, spec/60_exceptions.md R251, R252: executing an undefined word or an unknown math code is an error returned to the
caller, with nothing written and `running` as it was, for every word the decoder tags so. -/
def Obligations.UndefinedWordsReturnErrors : Prop :=
  ∀ (w : Word) (s : State),
    (∀ x y sub, decode w = .mathUnknown x y sub →
      exec (.mathUnknown x y sub) s = .next { s with report := .err (.invalidMathOperation sub) } ∧
      w.toNat / 4096 = 8 ∧ sub.toNat = w.toNat % 16) ∧
    (∀ raw, decode w = .undefinedZero raw → raw = w ∧
      exec (.undefinedZero raw) s = .next { s with report := .err (.invalidOpcode w) }) ∧
    (∀ raw, decode w = .undefinedKey raw → raw = w ∧
      exec (.undefinedKey raw) s = .next { s with report := .err (.invalidOpcode w) }) ∧
    (∀ raw, decode w = .undefinedMisc raw → raw = w ∧
      exec (.undefinedMisc raw) s = .next { s with report := .err (.invalidOpcode w) })

/-! ### Display -/

/-- spec/44_display.md R181, R182. -/
def Obligations.ClearScreenClearsEveryPixel : Prop :=
  ∀ s : State, decode 0x00E0 = .clearScreen ∧
    ∃ fb, exec .clearScreen s = .next { s with FB := fb, report := .ok } ∧
      ∀ px py, px < s.cfg.width → py < s.cfg.height → ({ s with FB := fb } : State).pixel px py = false

/-- spec/44_display.md R183 to R189: a Draw flips a pixel once for each set sprite bit that lands on it, clipped bits landing
nowhere, and `VF` ends 1 exactly when some flip turned a lit pixel off. No other state changes.
The bit order is decision D17, which setting clips D16, `VF` written last D18. -/
def Obligations.DrawFlipsCoveredPixels : Prop :=
  ∀ (x y : RegIdx) (n : Fin 16) (s : State), s.cfg.wf = true → Framebuffer.wf s.cfg s.FB →
    (n.val = 0 ∨ s.I.toNat + n.val ≤ 4096) →
    ∀ hits : Nat → Nat → Nat,
      hits = spriteHits s (s.V[x].toNat % s.cfg.width) (s.V[y].toNat % s.cfg.height) n.val →
      ∃ (fb : Framebuffer) (vf : Byte),
        exec (.draw x y n) s = .next { s with FB := fb, V := s.V.set VF vf, report := .ok } ∧
        (∀ px py, px < s.cfg.width → py < s.cfg.height →
          (({ s with FB := fb } : State).pixel px py = true ↔
            (s.pixel px py = true ∧ hits px py % 2 = 0) ∨ (s.pixel px py = false ∧ hits px py % 2 = 1))) ∧
        (vf = 0 ∨ vf = 1) ∧
        (vf = 1 ↔ ∃ px py, px < s.cfg.width ∧ py < s.cfg.height ∧
          ((s.pixel px py = true ∧ 1 ≤ hits px py) ∨ 2 ≤ hits px py))

/-- spec/44_display.md R188: a sprite read past the store is a fault, and no pixel and no register changes.
The fault is decision D9. -/
def Obligations.DrawOutOfRangeFaults : Prop :=
  ∀ (x y : RegIdx) (n : Fin 16) (s : State), n.val ≠ 0 → 4096 < s.I.toNat + n.val →
    onlyRecords (.draw x y n) s (.memoryOutOfRange s.I n.val)

/-- spec/44_display.md R190: a Draw of height 0 draws nothing, sets `VF` to 0 and never faults, whatever `I` holds.
Decision D18. -/
def Obligations.DrawHeightZeroOnlyClearsFlag : Prop :=
  ∀ (x y : RegIdx) (s : State), decode (wordRRN 0xD x y 0) = .draw x y 0 ∧
    writesRegs (.draw x y 0) s (fun vs => onlyResult s vs VF 0)

/-- Drawing the same sprite twice at the same place leaves the framebuffer as it was (spec/44_display.md R187, XOR compositing). -/
def Obligations.DrawTwiceRestoresFramebuffer : Prop :=
  ∀ (x y : RegIdx) (n : Fin 16) (s t u : State), s.cfg.wf = true → Framebuffer.wf s.cfg s.FB → x ≠ VF → y ≠ VF →
    t.fault = none → u.fault = none → exec (.draw x y n) s = .next t → exec (.draw x y n) t = .next u → u.FB = s.FB

/-! ### Keypad -/

/-- spec/45_keypad.md R200 to R202: the key skips, and the fault of a code above 15.
The fault is decision D25. -/
def Obligations.KeySkipsPollTheKey : Prop :=
  ∀ (x : RegIdx) (s : State),
    decode (wordRF 0xE x 0x9E) = .keyPressed x ∧ decode (wordRF 0xE x 0xA1) = .keyNotPressed x ∧
    (∀ k : Fin 16, s.V[x].toNat = k.val →
      skipsExactlyWhen (.keyPressed x) s (s.key[k] = true) ∧ skipsExactlyWhen (.keyNotPressed x) s (s.key[k] = false)) ∧
    (15 < s.V[x].toNat →
      onlyRecords (.keyPressed x) s (.keyOutOfRange s.V[x]) ∧ onlyRecords (.keyNotPressed x) s (.keyOutOfRange s.V[x]))

/-- spec/45_keypad.md R203: only the marker is set, whatever the key states, and the next step call waits. -/
def Obligations.WaitKeyPressSetsOnlyTheMarker : Prop :=
  ∀ (x : RegIdx) (s : State), decode (wordRF 0xF x 0x0A) = .waitKeyPress x ∧
    ∃ t, exec (.waitKeyPress x) s = .next t ∧ t = { s with wait := some x, report := .ok } ∧
      (s.mode = .running → t.mode = .keyWaiting)

/-- spec/45_keypad.md R207, R210: an accepted press sets the key, reports whether that changed it, and completes a pending wait once; a code
above 15 is rejected without mutation.
A press of a key already down completes a wait too: decision D26. -/
def Obligations.PressSetsKeyAndCompletesWait : Prop :=
  ∀ (s : State) (k : Nat) (rest : List HostEvent), s.script = .press k :: rest →
    (15 < k → step s = .next { s with script := rest, report := .rejected }) ∧
    (∀ j : Fin 16, k = j.val → ∃ t, step s = .next t ∧ t.wait = none ∧
      (∀ i : Fin 16, t.key[i] = if i = j then true else s.key[i]) ∧ t.report = .changed (!s.key[j]) ∧
      (∀ i : RegIdx, t.V[i] = if s.wait = some i then BitVec.ofNat 8 k else s.V[i]) ∧
      t = { s with script := rest, wait := t.wait, key := t.key, V := t.V, report := t.report })

/-- spec/45_keypad.md R211, R212: a release changes one key and never completes a wait or writes a register, and the query is pure. -/
def Obligations.ReleaseNeverCompletesWait : Prop :=
  ∀ (s : State) (k : Nat) (rest : List HostEvent), s.script = .release k :: rest →
    (15 < k → step s = .next { s with script := rest, report := .rejected } ∧ s.isPressed k = none) ∧
    (∀ j : Fin 16, k = j.val → s.isPressed k = some s.key[j] ∧
      ∃ keys, step s = .next { s with script := rest, key := keys, report := .changed s.key[j] } ∧
        ∀ i : Fin 16, keys[i] = if i = j then false else s.key[i])

/-! ### Timer, pointer and memory instructions -/

/-- spec/46_timer_pointer_memory.md R220 to R222: GetDelay, SetDelay, SetSound. The carry is not reset.
That the carry survives is decision D28. -/
def Obligations.TimerRegistersMove : Prop :=
  ∀ (x : RegIdx) (s : State),
    decode (wordRF 0xF x 0x07) = .getDelay x ∧ decode (wordRF 0xF x 0x15) = .setDelay x ∧ decode (wordRF 0xF x 0x18) = .setSound x ∧
    writesRegs (.getDelay x) s (fun vs => onlyResult s vs x s.DT.toNat) ∧
    (∃ d : Byte, exec (.setDelay x) s = .next { s with DT := d, report := .ok } ∧ d.toNat = s.V[x].toNat) ∧
    (∃ t, exec (.setSound x) s = .next t ∧ t = { s with ST := s.V[x], report := .ok } ∧ (t.toneOn = true ↔ s.V[x] ≠ 0))

/-- spec/46_timer_pointer_memory.md R223, R224: `I` set, and added to modulo 2^16 without a flag.
No flag is decision D20. -/
def Obligations.PointerSetAndAdd : Prop :=
  ∀ (x : RegIdx) (nnn : BitVec 12) (s : State),
    decode (wordA 0xA nnn) = .setPointer nnn ∧ decode (wordRF 0xF x 0x1E) = .addPointer x ∧
    (∃ a, exec (.setPointer nnn) s = .next { s with I := a, report := .ok } ∧ a.toNat = nnn.toNat) ∧
    (∃ a, exec (.addPointer x) s = .next { s with I := a, report := .ok } ∧ a.toNat = (s.I.toNat + s.V[x].toNat) % 65536)

/-- spec/46_timer_pointer_memory.md R225: `I` at the glyph of a digit, and the fault of a value above 15.
The instruction's meaning and its fault are decision D21. -/
def Obligations.FontGlyphPointsAtDigit : Prop :=
  ∀ (x : RegIdx) (s : State), s.cfg.wf = true → decode (wordRF 0xF x 0x29) = .fontGlyph x ∧
    (s.V[x].toNat ≤ 15 → ∃ a, exec (.fontGlyph x) s = .next { s with I := a, report := .ok } ∧
      a.toNat = s.cfg.fontBase + 5 * s.V[x].toNat) ∧
    (15 < s.V[x].toNat → onlyRecords (.fontGlyph x) s (.fontDigitOutOfRange s.V[x]))

/-- spec/46_timer_pointer_memory.md R226: three decimal digits, hundreds first, at `I`, and no other byte; a store past the end is a
fault with no byte written.
The digit order is decision D36, the fault D9. -/
def Obligations.SplitNumberStoresDigits : Prop :=
  ∀ (x : RegIdx) (s : State), Memory.wf s.cfg s.mem → decode (wordRF 0xF x 0x33) = .splitNumber x ∧
    (s.I.toNat + 3 ≤ 4096 → ∃ m, exec (.splitNumber x) s = .next { s with mem := m, report := .ok } ∧
      ∀ t : State, t = { s with mem := m } →
        (t.byteAt s.I.toNat).toNat = s.V[x].toNat / 100 ∧
        (t.byteAt (s.I.toNat + 1)).toNat = s.V[x].toNat / 10 % 10 ∧
        (t.byteAt (s.I.toNat + 2)).toNat = s.V[x].toNat % 10 ∧
        ∀ a, (a < s.I.toNat ∨ s.I.toNat + 3 ≤ a) → t.byteAt a = s.byteAt a) ∧
    (4096 < s.I.toNat + 3 → onlyRecords (.splitNumber x) s (.memoryOutOfRange s.I 3))

/-- spec/46_timer_pointer_memory.md R236: `V[0]` to `V[x]` at `I`, and no other byte; `I` advances by `x+1` only under the quirk; a store past
the end is a fault with no byte written and `I` unchanged.
The fault is decision D9. -/
def Obligations.RegisterDumpStoresRegisters : Prop :=
  ∀ (x : RegIdx) (s : State), Memory.wf s.cfg s.mem → decode (wordRF 0xF x 0x55) = .registerDump x ∧
    (s.I.toNat + (x.val + 1) ≤ 4096 → ∃ m p, exec (.registerDump x) s = .next { s with mem := m, I := p, report := .ok } ∧
      p.toNat = (if s.q.memSetsPointer then s.I.toNat + (x.val + 1) else s.I.toNat) ∧
      ∀ t : State, t = { s with mem := m } →
        (∀ k : RegIdx, k.val ≤ x.val → t.byteAt (s.I.toNat + k.val) = s.V[k]) ∧
        ∀ a, (a < s.I.toNat ∨ s.I.toNat + (x.val + 1) ≤ a) → t.byteAt a = s.byteAt a) ∧
    (4096 < s.I.toNat + (x.val + 1) → onlyRecords (.registerDump x) s (.memoryOutOfRange s.I (x.val + 1)))

/-- spec/46_timer_pointer_memory.md R237: `V[0]` to `V[x]` from the bytes at `I`, the registers above `x` and every byte of the store as they were.
The fault is decision D9. -/
def Obligations.RegisterLoadReadsBytes : Prop :=
  ∀ (x : RegIdx) (s : State), decode (wordRF 0xF x 0x65) = .registerLoad x ∧
    (s.I.toNat + (x.val + 1) ≤ 4096 → ∃ vs p, exec (.registerLoad x) s = .next { s with V := vs, I := p, report := .ok } ∧
      p.toNat = (if s.q.memSetsPointer then s.I.toNat + (x.val + 1) else s.I.toNat) ∧
      ∀ k : RegIdx, vs[k] = if k.val ≤ x.val then s.byteAt (s.I.toNat + k.val) else s.V[k]) ∧
    (4096 < s.I.toNat + (x.val + 1) → onlyRecords (.registerLoad x) s (.memoryOutOfRange s.I (x.val + 1)))

/-- A RegisterDump and then a RegisterLoad from the same place give the dumped registers back, whatever the registers
hold in between (spec/46_timer_pointer_memory.md R236, R237). -/
def Obligations.LoadUndoesDump : Prop :=
  ∀ (x : RegIdx) (s t : State) (vs : Vector Byte 16), Memory.wf s.cfg s.mem → s.I.toNat + (x.val + 1) ≤ 4096 →
    exec (.registerDump x) s = .next t →
    ∃ u, exec (.registerLoad x) { t with V := vs, I := s.I } = .next u ∧
      ∀ k : RegIdx, u.V[k] = if k.val ≤ x.val then s.V[k] else vs[k]

/-- spec/20_memory.md R61, spec/70_reset_and_hazards.md R284: after either instruction that stores, at any place in the store, the very
next fetch reads each byte of the word at `pc` as stored, where the store covers it, and as before, where it does not.
R284 is marked by the spec as derived, and R61 is decision D34. -/
def Obligations.StoreIsSeenByNextFetch : Prop :=
  ∀ (x : RegIdx) (s : State), Memory.wf s.cfg s.mem → s.pc.toNat % 2 = 0 → s.pc.toNat + 2 ≤ 4096 →
    (s.I.toNat + (x.val + 1) ≤ 4096 →
      fetchesNext (.registerDump x) s (overlaid s (x.val + 1) fun k => (s.V.toList.getD k 0).toNat)) ∧
    (s.I.toNat + 3 ≤ 4096 →
      fetchesNext (.splitNumber x) s (overlaid s 3 fun k => s.V[x].toNat / 10 ^ (2 - k) % 10))

/-! ### Host calls -/

/-- spec/60_exceptions.md R265: a program that fits is written at the load offset and nothing else changes; one that does not is refused whole.
The refusal is decision D33; the load as an event is the model's (notes/assumptions/4.md). -/
def Obligations.LoadWritesProgramOrIsRefused : Prop :=
  ∀ (s : State) (bytes : List Byte) (rest : List HostEvent), s.script = .load bytes :: rest → Memory.wf s.cfg s.mem →
    (4096 < s.cfg.loadOffset + bytes.length → step s = .next { s with script := rest, report := .rejected }) ∧
    (s.cfg.loadOffset + bytes.length ≤ 4096 →
      ∃ m, step s = .next { s with script := rest, mem := m, report := .nothing } ∧
        ∀ t : State, t = { s with mem := m } →
          (∀ k b, bytes[k]? = some b → t.byteAt (s.cfg.loadOffset + k) = b) ∧
          ∀ a, (a < s.cfg.loadOffset ∨ s.cfg.loadOffset + bytes.length ≤ a) → t.byteAt a = s.byteAt a)

/-- The value of every field after construction and after a reset from any state (spec/10_state.md R41; spec/70_reset_and_hazards.md
R280, R281). The values of the framebuffer, keys and timers are decision D30, of `tlast` D29, of `q` D32. That a reset keeps the
parameters and the coming events is the model's choice (notes/assumptions/20.md), and so are the reset as an event
(notes/assumptions/4.md) and which parameters are legal (notes/assumptions/18.md). -/
def Obligations.ResetSetsEveryField : Prop :=
  (∀ (cfg : Config) (q : Quirks) (now : Nat), cfg.wf = true →
    initialValues (State.construct cfg q now) now ∧ (State.construct cfg q now).q = q ∧ (State.construct cfg q now).cfg = cfg) ∧
  (∀ (s : State) (now : Nat) (rest : List HostEvent), s.script = .reset now :: rest → s.cfg.wf = true →
    ∃ t, step s = .next t ∧ initialValues t now ∧ t.q = s.q ∧ t.cfg = s.cfg ∧ t.script = rest)

/-- spec/60_exceptions.md R269: a quirk write replaces the six booleans, takes effect from the next step, and changes nothing else.
Decision D32; the write as an event is the model's (notes/assumptions/4.md). -/
def Obligations.QuirkWriteReplacesQuirks : Prop :=
  ∀ (s : State) (q : Quirks) (rest : List HostEvent), s.script = .setQuirks q :: rest →
    step s = .next { s with script := rest, q := q, report := .nothing }

/-- spec/70_reset_and_hazards.md R282: from construction with no program loaded, the first step call reads `0x0000` at the load offset and returns
`InvalidOpcode(0x0000)`, for every host input that keeps its duty and every parameter setting whose font does not reach the load offset. -/
def Obligations.FirstStepWithoutProgram : Prop :=
  ∀ (cfg : Config) (q : Quirks) (now : Nat) (inp : StepInput), cfg.wf = true →
    (cfg.fontBase + 80 ≤ cfg.loadOffset ∨ cfg.loadOffset + 2 ≤ cfg.fontBase) → now ≤ inp.now →
    ∃ t, step { State.construct cfg q now with script := [.call inp] } = .next t ∧
      t.report = .err (.invalidOpcode 0x0000) ∧ t.pc.toNat = cfg.loadOffset + 2 ∧ t.running = true
end

