-- ==== Sys2Proof/Laws/Decode.lean ====
section
/-! SUPPORT. The value of each field and each format of a word, and the fields of an encoded word (spec/30_encoding.md R71, R72). -/

namespace Sys2Proof

theorem toNat_append_eq {n m : Nat} (a : BitVec n) (b : BitVec m) : (a ++ b).toNat = a.toNat * 2 ^ m + b.toNat := by
  rw [BitVec.toNat_append, ← Nat.shiftLeft_add_eq_or_of_lt b.isLt, Nat.shiftLeft_eq]

theorem nibbleOfFin_toNat (r : Fin 16) : (nibbleOfFin r).toNat = r.val := by
  simp only [nibbleOfFin, BitVec.toNat_ofNat]; omega

@[simp] theorem regOfNibble_nibbleOfFin (r : Fin 16) : regOfNibble (nibbleOfFin r) = r :=
  Fin.ext (nibbleOfFin_toNat r)

@[simp] theorem nibbleOfFin_regOfNibble (b : BitVec 4) : nibbleOfFin (regOfNibble b) = b :=
  BitVec.eq_of_toNat_eq (nibbleOfFin_toNat _)

/-! The value of each field of a word, as arithmetic on the word's value (R71). -/

theorem fieldC_toNat (w : Word) : (fieldC w).toNat = w.toNat / 4096 := by
  have := w.isLt
  simp only [fieldC, BitVec.extractLsb'_toNat, Nat.shiftRight_eq_div_pow]; omega

theorem fieldX_val (w : Word) : (fieldX w).val = w.toNat / 256 % 16 := by
  simp only [fieldX, regOfNibble, BitVec.extractLsb'_toNat, Nat.shiftRight_eq_div_pow]

theorem fieldY_val (w : Word) : (fieldY w).val = w.toNat / 16 % 16 := by
  simp only [fieldY, regOfNibble, BitVec.extractLsb'_toNat, Nat.shiftRight_eq_div_pow]

theorem fieldN_toNat (w : Word) : (fieldN w).toNat = w.toNat % 16 := by
  simp only [fieldN, BitVec.extractLsb'_toNat, Nat.shiftRight_eq_div_pow]; omega

theorem fieldNN_toNat (w : Word) : (fieldNN w).toNat = w.toNat % 256 := by
  simp only [fieldNN, BitVec.extractLsb'_toNat, Nat.shiftRight_eq_div_pow]; omega

theorem fieldNNN_toNat (w : Word) : (fieldNNN w).toNat = w.toNat % 4096 := by
  simp only [fieldNNN, BitVec.extractLsb'_toNat, Nat.shiftRight_eq_div_pow]; omega

/-! The value of each encoded format (R72). -/

theorem encodeA_toNat (c : BitVec 4) (nnn : BitVec 12) : (encodeA c nnn).toNat = c.toNat * 4096 + nnn.toNat := by
  simp only [encodeA, toNat_append_eq]; omega

theorem encodeRB_toNat (c : BitVec 4) (x : RegIdx) (nn : Byte) :
    (encodeRB c x nn).toNat = c.toNat * 4096 + x.val * 256 + nn.toNat := by
  simp only [encodeRB, toNat_append_eq, nibbleOfFin_toNat]; omega

theorem encodeRRN_toNat (c : BitVec 4) (x y : RegIdx) (n : BitVec 4) :
    (encodeRRN c x y n).toNat = c.toNat * 4096 + x.val * 256 + y.val * 16 + n.toNat := by
  simp only [encodeRRN, toNat_append_eq, nibbleOfFin_toNat]; omega

/-! The fields of each encoded format. -/

@[simp] theorem fieldC_encodeA (c : BitVec 4) (nnn : BitVec 12) : fieldC (encodeA c nnn) = c :=
  BitVec.eq_of_toNat_eq (by rw [fieldC_toNat, encodeA_toNat]; omega)

@[simp] theorem fieldNNN_encodeA (c : BitVec 4) (nnn : BitVec 12) : fieldNNN (encodeA c nnn) = nnn :=
  BitVec.eq_of_toNat_eq (by rw [fieldNNN_toNat, encodeA_toNat]; omega)

@[simp] theorem fieldC_encodeRB (c : BitVec 4) (x : RegIdx) (nn : Byte) : fieldC (encodeRB c x nn) = c :=
  BitVec.eq_of_toNat_eq (by rw [fieldC_toNat, encodeRB_toNat]; omega)

@[simp] theorem fieldX_encodeRB (c : BitVec 4) (x : RegIdx) (nn : Byte) : fieldX (encodeRB c x nn) = x :=
  Fin.ext (by rw [fieldX_val, encodeRB_toNat]; omega)

@[simp] theorem fieldNN_encodeRB (c : BitVec 4) (x : RegIdx) (nn : Byte) : fieldNN (encodeRB c x nn) = nn :=
  BitVec.eq_of_toNat_eq (by rw [fieldNN_toNat, encodeRB_toNat]; omega)

@[simp] theorem fieldC_encodeRRN (c : BitVec 4) (x y : RegIdx) (n : BitVec 4) : fieldC (encodeRRN c x y n) = c :=
  BitVec.eq_of_toNat_eq (by rw [fieldC_toNat, encodeRRN_toNat]; omega)

@[simp] theorem fieldX_encodeRRN (c : BitVec 4) (x y : RegIdx) (n : BitVec 4) : fieldX (encodeRRN c x y n) = x :=
  Fin.ext (by rw [fieldX_val, encodeRRN_toNat]; omega)

@[simp] theorem fieldY_encodeRRN (c : BitVec 4) (x y : RegIdx) (n : BitVec 4) : fieldY (encodeRRN c x y n) = y :=
  Fin.ext (by rw [fieldY_val, encodeRRN_toNat]; omega)

@[simp] theorem fieldN_encodeRRN (c : BitVec 4) (x y : RegIdx) (n : BitVec 4) : fieldN (encodeRRN c x y n) = n :=
  BitVec.eq_of_toNat_eq (by rw [fieldN_toNat, encodeRRN_toNat]; omega)

theorem wordOfBytes_toNat (hi lo : Byte) : (wordOfBytes hi lo).toNat = hi.toNat * 256 + lo.toNat := by
  simp only [wordOfBytes, toNat_append_eq]; omega

theorem highByte_toNat (w : Word) : (highByte w).toNat = w.toNat / 256 := by
  have := w.isLt
  simp only [highByte, BitVec.extractLsb'_toNat, Nat.shiftRight_eq_div_pow]; omega

theorem lowByte_toNat (w : Word) : (lowByte w).toNat = w.toNat % 256 := by
  simp only [lowByte, BitVec.extractLsb'_toNat, Nat.shiftRight_eq_div_pow]; omega

/-- A word's two bytes, put together again, are the word (R55). -/
@[simp] theorem wordOfBytes_high_low (w : Word) : wordOfBytes (highByte w) (lowByte w) = w :=
  BitVec.eq_of_toNat_eq (by rw [wordOfBytes_toNat, highByte_toNat, lowByte_toNat]; omega)

/-- The decoder of a word's two bytes is the decoder of the word, for every table word of at most 16 bits. -/
theorem decodeTableWord_eq {nbits : Nat} (h : nbits ≤ 16) (w : Nat) :
    decodeTableWord nbits w = some (decode (tableWord nbits w)) := by
  simp [decodeTableWord, decodeBytes, Nat.not_lt.2 h]

/-- `decodeMath` selects by the code alone: each defined code its own operation, every other one unknown. -/
theorem decodeMath_cases (x y : RegIdx) (n : BitVec 4) :
    (n.toNat = 0 ∧ decodeMath x y n = .mathAssign x y) ∨ (n.toNat = 1 ∧ decodeMath x y n = .mathOr x y) ∨
    (n.toNat = 2 ∧ decodeMath x y n = .mathAnd x y) ∨ (n.toNat = 3 ∧ decodeMath x y n = .mathXor x y) ∨
    (n.toNat = 4 ∧ decodeMath x y n = .mathAdd x y) ∨ (n.toNat = 5 ∧ decodeMath x y n = .mathSubtract x y) ∨
    (n.toNat = 6 ∧ decodeMath x y n = .mathShiftRight x y) ∨ (n.toNat = 7 ∧ decodeMath x y n = .mathDifference x y) ∨
    (n.toNat = 14 ∧ decodeMath x y n = .mathShiftLeft x y) ∨
    ((8 ≤ n.toNat ∧ n.toNat ≠ 14) ∧ decodeMath x y n = .mathUnknown x y n) := by
  unfold decodeMath
  split <;> simp_all
  omega
end Sys2Proof
end

