-- ==== Sys2Proof/Laws/Framebuffer.lean ====
section
/-! SUPPORT. The framebuffer engine's laws: a sprite draw is a list of flips, and what a list of flips does (spec/44_display.md R183, R187). -/

namespace Sys2Proof.Machine

theorem Framebuffer.lit_iff {fb : Framebuffer} {k : Nat} : fb.lit k = true ↔ k ∈ fb := by simp [Framebuffer.lit]

theorem Framebuffer.flip_mem {fb : Framebuffer} {k j : Nat} (h : j ∈ fb.flip k) : j = k ∨ j ∈ fb := by
  induction fb with
  | nil => simpa [Framebuffer.flip] using h
  | cons a rest ih => unfold Framebuffer.flip at h; grind

theorem Framebuffer.flip_sorted {fb : Framebuffer} (k : Nat) (h : fb.Pairwise (· < ·)) : (fb.flip k).Pairwise (· < ·) := by
  induction fb with
  | nil => simp [Framebuffer.flip]
  | cons a rest ih =>
    have ha := List.pairwise_cons.1 h
    unfold Framebuffer.flip
    split
    · rename_i hlt
      refine List.pairwise_cons.2 ⟨fun d hd => ?_, h⟩
      rcases List.mem_cons.1 hd with rfl | hd
      · exact hlt
      · exact Nat.lt_trans hlt (ha.1 d hd)
    · split
      · exact ha.2
      · refine List.pairwise_cons.2 ⟨fun d hd => ?_, ih ha.2⟩
        rcases Framebuffer.flip_mem hd with rfl | hd
        · omega
        · exact ha.1 d hd

/-- What one flip does to every element. -/
theorem Framebuffer.mem_flip {fb : Framebuffer} (h : fb.Pairwise (· < ·)) (k j : Nat) :
    j ∈ fb.flip k ↔ if j = k then j ∉ fb else j ∈ fb := by
  induction fb with
  | nil => simp [Framebuffer.flip]
  | cons a rest ih =>
    have ha := List.pairwise_cons.1 h
    have hnot : ∀ i, i ≤ a → i ∉ rest := fun i hi hm => absurd (ha.1 i hm) (by omega)
    unfold Framebuffer.flip
    split
    · rename_i hlt
      have := hnot k (Nat.le_of_lt hlt)
      grind
    · split
      · rename_i heq
        have := hnot k (Nat.le_of_eq heq)
        grind
      · have := ih ha.2
        grind

/-- Flips a list of elements in order, and notes a flip of a lit one: the loop of R183 with its targets written out. -/
def flipAll (ks : List Nat) (acc : Framebuffer × Bool) : Framebuffer × Bool :=
  ks.foldl (fun acc k => (acc.1.flip k, acc.2 || acc.1.lit k)) acc

/-- The targets of one sprite row, columns left to right. -/
def rowTargets (cfg : Config) (q : Quirks) (x0 cy : Nat) (row : Byte) : List Nat :=
  (List.range 8).filterMap fun c => if spriteBit row c then pixelTarget cfg q (x0 + c) cy else none

/-- The targets of a sprite's rows from row `cy` on. -/
def spriteTargets (cfg : Config) (q : Quirks) (x0 : Nat) : Nat → List Byte → List Nat
  | _, [] => []
  | cy, row :: rows => rowTargets cfg q x0 cy row ++ spriteTargets cfg q x0 (cy + 1) rows

theorem flipAll_append (ks js : List Nat) (acc : Framebuffer × Bool) :
    flipAll (ks ++ js) acc = flipAll js (flipAll ks acc) := List.foldl_append

theorem drawRow_eq (cfg : Config) (q : Quirks) (x0 cy : Nat) (row : Byte) (acc : Framebuffer × Bool) :
    drawRow cfg q x0 cy row acc = flipAll (rowTargets cfg q x0 cy row) acc := by
  unfold drawRow flipAll rowTargets
  generalize List.range 8 = cs
  induction cs generalizing acc with
  | nil => rfl
  | cons c cs ih =>
    rw [List.foldl_cons, ih]
    by_cases hb : spriteBit row c = true
    · cases ht : pixelTarget cfg q (x0 + c) cy with
      | none => simp [hb, ht, drawPixel]
      | some k => simp [hb, ht, drawPixel]
    · simp [hb]

theorem drawRows_eq (cfg : Config) (q : Quirks) (x0 cy : Nat) (rows : List Byte) (acc : Framebuffer × Bool) :
    drawRows cfg q x0 cy rows acc = flipAll (spriteTargets cfg q x0 cy rows) acc := by
  induction rows generalizing cy acc with
  | nil => rfl
  | cons row rows ih => rw [drawRows, ih, drawRow_eq, spriteTargets, flipAll_append]

theorem flipAll_sorted (ks : List Nat) {acc : Framebuffer × Bool} (h : acc.1.Pairwise (· < ·)) :
    (flipAll ks acc).1.Pairwise (· < ·) := by
  induction ks generalizing acc with
  | nil => exact h
  | cons k ks ih => exact ih (Framebuffer.flip_sorted k h)

theorem flipAll_mem (ks : List Nat) {acc : Framebuffer × Bool} {j : Nat} (h : j ∈ (flipAll ks acc).1) :
    j ∈ ks ∨ j ∈ acc.1 := by
  induction ks generalizing acc with
  | nil => exact .inr h
  | cons k ks ih =>
    rcases ih h with h | h
    · exact .inl (by simp [h])
    · rcases Framebuffer.flip_mem h with rfl | h
      · exact .inl (by simp)
      · exact .inr h

/-- What a list of flips does to every element: it changes exactly when it is flipped an odd number of times. -/
theorem mem_flipAll (ks : List Nat) {acc : Framebuffer × Bool} (h : acc.1.Pairwise (· < ·)) (j : Nat) :
    j ∈ (flipAll ks acc).1 ↔ (j ∈ acc.1 ∧ ks.count j % 2 = 0) ∨ (j ∉ acc.1 ∧ ks.count j % 2 = 1) := by
  induction ks generalizing acc with
  | nil => simp [flipAll]
  | cons k ks ih =>
    have step := ih (acc := (acc.1.flip k, acc.2 || acc.1.lit k)) (Framebuffer.flip_sorted k h)
    show j ∈ (flipAll ks (acc.1.flip k, acc.2 || acc.1.lit k)).1 ↔ _
    rw [step, Framebuffer.mem_flip h, List.count_cons]
    by_cases hj : j = k
    · subst hj
      by_cases hm : j ∈ acc.1 <;> simp [hm] <;> omega
    · simp [hj, Ne.symm hj]

/-- When a list of flips collides: some element is flipped that was lit, or is flipped twice. -/
theorem flipAll_collides (ks : List Nat) {acc : Framebuffer × Bool} (h : acc.1.Pairwise (· < ·)) :
    (flipAll ks acc).2 = true ↔ acc.2 = true ∨ ∃ j, (j ∈ acc.1 ∧ 1 ≤ ks.count j) ∨ 2 ≤ ks.count j := by
  induction ks generalizing acc with
  | nil => simp [flipAll]
  | cons k ks ih =>
    have step := ih (acc := (acc.1.flip k, acc.2 || acc.1.lit k)) (Framebuffer.flip_sorted k h)
    show (flipAll ks (acc.1.flip k, acc.2 || acc.1.lit k)).2 = true ↔ _
    rw [step]
    simp only [Framebuffer.mem_flip h, List.count_cons, Bool.or_eq_true, Framebuffer.lit_iff, beq_iff_eq]
    constructor
    · rintro ((h1 | h1) | ⟨j, h1⟩)
      · exact .inl h1
      · exact .inr ⟨k, .inl ⟨h1, by simp⟩⟩
      · refine .inr ⟨j, ?_⟩
        by_cases hj : j = k
        · subst hj
          by_cases hm : j ∈ acc.1 <;>
            simp only [hm, if_true, not_true_eq_false, not_false_eq_true, true_and, false_and, false_or] at h1 ⊢ <;> omega
        · simpa [hj, Ne.symm hj] using h1
    · rintro (h1 | ⟨j, h1⟩)
      · exact .inl (.inl h1)
      · by_cases hj : j = k
        · subst hj
          by_cases hm : j ∈ acc.1
          · exact .inl (.inr hm)
          · refine .inr ⟨j, ?_⟩
            simp only [hm, if_true, not_false_eq_true, true_and, false_and, false_or] at h1 ⊢
            omega
        · exact .inr ⟨j, by simpa [hj, Ne.symm hj] using h1⟩

/-- Everything a sprite draw does: the flips of its targets (R183). -/
theorem drawSprite_eq (cfg : Config) (q : Quirks) (x0 y0 : Nat) (rows : List Byte) (fb : Framebuffer) :
    drawSprite cfg q x0 y0 rows fb = flipAll (spriteTargets cfg q x0 y0 rows) (fb, false) := drawRows_eq ..

theorem pixelTarget_lt {cfg : Config} {q : Quirks} {cx cy k : Nat} (hw : 0 < cfg.width) (hh : 0 < cfg.height)
    (h : pixelTarget cfg q cx cy = some k) : k < cfg.width * cfg.height := by
  have key : ∀ x y, x < cfg.width → y < cfg.height → pixelIndex cfg x y < cfg.width * cfg.height := by
    intro x y hx hy
    have : (y + 1) * cfg.width ≤ cfg.height * cfg.width := Nat.mul_le_mul_right _ hy
    unfold pixelIndex; nlinarith
  unfold pixelTarget at h
  split at h
  · split at h
    · cases h
    · rename_i hc
      cases h; exact key _ _ (by omega) (by omega)
  · cases h; exact key _ _ (Nat.mod_lt _ hw) (Nat.mod_lt _ hh)

theorem spriteTargets_lt {cfg : Config} {q : Quirks} {x0 cy k : Nat} {rows : List Byte} (hw : 0 < cfg.width)
    (hh : 0 < cfg.height) (h : k ∈ spriteTargets cfg q x0 cy rows) : k < cfg.width * cfg.height := by
  induction rows generalizing cy with
  | nil => simp [spriteTargets] at h
  | cons row rows ih =>
    rcases List.mem_append.1 h with h | h
    · simp only [rowTargets, List.mem_filterMap] at h
      obtain ⟨c, -, hc⟩ := h
      split at hc
      · exact pixelTarget_lt hw hh hc
      · cases hc
    · exact ih h

/-- A draw keeps the framebuffer's canonical form. -/
theorem drawSprite_wf {cfg : Config} (q : Quirks) (x0 y0 : Nat) (rows : List Byte) {fb : Framebuffer}
    (hw : 0 < cfg.width) (hh : 0 < cfg.height) (h : Framebuffer.wf cfg fb) :
    Framebuffer.wf cfg (drawSprite cfg q x0 y0 rows fb).1 := by
  rw [drawSprite_eq]
  refine ⟨flipAll_sorted _ h.1, fun k hk => ?_⟩
  rcases flipAll_mem _ hk with hk | hk
  · exact spriteTargets_lt hw hh hk
  · exact h.2 k hk

/-- Two canonical framebuffers with the same lit elements are the same list. -/
theorem Framebuffer.ext_of_mem {fb fb' : Framebuffer} (h : fb.Pairwise (· < ·)) (h' : fb'.Pairwise (· < ·))
    (hm : ∀ k, k ∈ fb ↔ k ∈ fb') : fb = fb' := by
  have nd : ∀ {l : Framebuffer}, l.Pairwise (· < ·) → l.Nodup := fun hl => hl.imp fun h => Nat.ne_of_lt h
  have hp : fb.Perm fb' := (List.perm_ext_iff_of_nodup (nd h) (nd h')).2 hm
  exact hp.eq_of_pairwise (fun a b _ _ h1 h2 => absurd h1 (by omega)) h h'

end Sys2Proof.Machine
end

