-- ==== Sys2Proof/Laws/Memory.lean ====
section
/-! SUPPORT. The store's laws: a read after a write, and that every write keeps the canonical form (spec/20_memory.md R57). -/

namespace Sys2Proof.Machine

theorem Memory.read_of_lt {cfg : Config} {m : Memory} {a : Nat} (h : ∀ c ∈ m, a < c.1) :
    Memory.read cfg m a = Memory.unlisted cfg a := by
  induction m with
  | nil => rfl
  | cons c rest ih =>
    have hc : a < c.1 := h c (by simp)
    simp only [Memory.read, if_neg (Nat.ne_of_gt hc)]
    exact ih fun d hd => h d (by simp [hd])

theorem Memory.read_put {cfg : Config} {m : Memory} {a : Nat} {b : Byte} (h : ∀ c ∈ m, a < c.1) (a' : Nat) :
    Memory.read cfg (Memory.put cfg a b m) a' = if a' = a then b else Memory.read cfg m a' := by
  unfold Memory.put
  split
  · rename_i hb
    split
    · subst a'; rw [Memory.read_of_lt h, hb]
    · rfl
  · simp only [Memory.read, eq_comm (a := a)]

theorem Memory.read_write {cfg : Config} {m : Memory} (h : m.Pairwise (fun c d => c.1 < d.1)) (a : Nat) (b : Byte)
    (a' : Nat) : Memory.read cfg (Memory.write cfg a b m) a' = if a' = a then b else Memory.read cfg m a' := by
  induction m with
  | nil => exact Memory.read_put (by simp) a'
  | cons c rest ih =>
    rw [List.pairwise_cons] at h
    unfold Memory.write
    split
    · rename_i hlt
      refine Memory.read_put ?_ a'
      rintro d hd
      rcases List.mem_cons.1 hd with rfl | hd
      · exact hlt
      · exact Nat.lt_trans hlt (h.1 d hd)
    · split
      · rename_i heq
        rw [Memory.read_put (fun d hd => heq ▸ h.1 d hd) a']
        split
        · rfl
        · rename_i hne
          simp [Memory.read, heq.symm, Ne.symm hne]
      · rename_i hlt hne
        simp only [Memory.read, ih h.2]
        grind

theorem Memory.put_mem {cfg : Config} {m : Memory} {a : Nat} {b : Byte} {c : Host.Cell} (h : c ∈ Memory.put cfg a b m) :
    (c = (a, b) ∧ b ≠ Memory.unlisted cfg a) ∨ c ∈ m := by
  unfold Memory.put at h; grind

theorem Memory.write_mem {cfg : Config} {m : Memory} {a : Nat} {b : Byte} {c : Host.Cell}
    (h : c ∈ Memory.write cfg a b m) : (c = (a, b) ∧ b ≠ Memory.unlisted cfg a) ∨ c ∈ m := by
  induction m with
  | nil => exact Memory.put_mem h
  | cons d rest ih =>
    unfold Memory.write at h
    split at h
    · exact Memory.put_mem h
    · split at h
      · rcases Memory.put_mem h with h | h <;> simp [h]
      · rcases List.mem_cons.1 h with rfl | h
        · simp
        · rcases ih h with h | h <;> simp [h]

theorem Memory.put_sorted {cfg : Config} {m : Memory} {a : Nat} {b : Byte} (hm : m.Pairwise (fun c d => c.1 < d.1))
    (h : ∀ c ∈ m, a < c.1) : (Memory.put cfg a b m).Pairwise (fun c d => c.1 < d.1) := by
  unfold Memory.put
  split
  · exact hm
  · exact List.pairwise_cons.2 ⟨h, hm⟩

theorem Memory.write_sorted {cfg : Config} {m : Memory} (a : Nat) (b : Byte) (h : m.Pairwise (fun c d => c.1 < d.1)) :
    (Memory.write cfg a b m).Pairwise (fun c d => c.1 < d.1) := by
  induction m with
  | nil => exact Memory.put_sorted .nil (by simp)
  | cons c rest ih =>
    have hc := List.pairwise_cons.1 h
    unfold Memory.write
    split
    · refine Memory.put_sorted h ?_
      rintro d hd
      rcases List.mem_cons.1 hd with rfl | hd
      · assumption
      · exact Nat.lt_trans ‹_› (hc.1 d hd)
    · split
      · rename_i heq
        exact Memory.put_sorted hc.2 fun d hd => heq ▸ hc.1 d hd
      · refine List.pairwise_cons.2 ⟨fun d hd => ?_, ih hc.2⟩
        rcases Memory.write_mem hd with ⟨rfl, -⟩ | hd
        · show c.1 < a; omega
        · exact hc.1 d hd

theorem Memory.write_wf {cfg : Config} {m : Memory} {a : Nat} (b : Byte) (ha : a < memSize) (h : Memory.wf cfg m) :
    Memory.wf cfg (Memory.write cfg a b m) := by
  refine ⟨Memory.write_sorted a b h.1, fun c hc => ?_⟩
  rcases Memory.write_mem hc with ⟨rfl, hb⟩ | hc
  · exact ⟨ha, hb⟩
  · exact h.2 c hc

theorem Memory.writeBytes_wf {cfg : Config} (bs : List Byte) {m : Memory} {a : Nat} (ha : a + bs.length ≤ memSize)
    (h : Memory.wf cfg m) : Memory.wf cfg (Memory.writeBytes cfg a bs m) := by
  induction bs generalizing a m with
  | nil => exact h
  | cons b bs ih =>
    simp only [List.length_cons] at ha
    exact ih (by omega) (Memory.write_wf b (by omega) h)

theorem Memory.writeBytes_sorted {cfg : Config} (bs : List Byte) {m : Memory} (a : Nat)
    (h : m.Pairwise (fun c d => c.1 < d.1)) :
    (Memory.writeBytes cfg a bs m).Pairwise (fun c d => c.1 < d.1) := by
  induction bs generalizing a m with
  | nil => exact h
  | cons b bs ih => exact ih _ (Memory.write_sorted a b h)

/-- Everything a store of consecutive bytes does to the store. -/
theorem Memory.read_writeBytes {cfg : Config} (bs : List Byte) {m : Memory} (a : Nat)
    (h : m.Pairwise (fun c d => c.1 < d.1)) (a' : Nat) :
    Memory.read cfg (Memory.writeBytes cfg a bs m) a' =
      if a ≤ a' ∧ a' < a + bs.length then bs.getD (a' - a) 0 else Memory.read cfg m a' := by
  induction bs generalizing a m with
  | nil => simp [Memory.writeBytes]
  | cons b bs ih =>
    rw [Memory.writeBytes, ih _ (Memory.write_sorted a b h), Memory.read_write h]
    simp only [List.length_cons]
    rcases Nat.lt_trichotomy a' a with hlt | heq | hgt
    · rw [if_neg (by omega), if_neg (by omega), if_neg (by omega)]
    · subst heq
      rw [if_neg (by omega), if_pos rfl, if_pos (by omega)]; simp
    · by_cases hin : a' < a + (bs.length + 1)
      · rw [if_pos (by omega), if_pos (by omega), show a' - a = (a' - (a + 1)) + 1 by omega]; simp
      · rw [if_neg (by omega), if_neg (by omega), if_neg (by omega)]

@[simp] theorem Memory.readBytes_length (cfg : Config) (m : Memory) (a n : Nat) :
    (Memory.readBytes cfg m a n).length = n := by simp [Memory.readBytes]

theorem Memory.readBytes_getD (cfg : Config) (m : Memory) (a : Nat) {n k : Nat} (h : k < n) :
    (Memory.readBytes cfg m a n).getD k 0 = Memory.read cfg m (a + k) := by
  simp [Memory.readBytes, List.getD, h]

end Sys2Proof.Machine
end

