-- ==== Sys2Proof/Laws/State.lean ====
section
/-! SUPPORT. One lemma per field per named update of State: the field the update writes, and every field it leaves. -/

namespace Sys2Proof.Machine

@[simp] theorem State.setReg_V (x : RegIdx) (b : Byte) (s : State) : (s.setReg x b).V = s.V.set x b := rfl
@[simp] theorem State.setI_I (a : Word) (s : State) : (s.setI a).I = a := rfl
@[simp] theorem State.setPc_pc (a : Word) (s : State) : (s.setPc a).pc = a := rfl
@[simp] theorem State.advancePc_pc (s : State) : s.advancePc.pc = s.pc + 2 := rfl
@[simp] theorem State.skipWhen_pc (c : Bool) (s : State) : (s.skipWhen c).pc = if c then s.pc + 2 else s.pc := by
  cases c <;> rfl
@[simp] theorem State.advanceTimers_tlast (now : Nat) (s : State) : (s.advanceTimers now).tlast = now := rfl
@[simp] theorem State.advanceTimers_tacc (now : Nat) (s : State) :
    (s.advanceTimers now).tacc = s.tickFractions now % nanosPerSecond := rfl
@[simp] theorem State.advanceTimers_DT (now : Nat) (s : State) :
    (s.advanceTimers now).DT = countDown s.DT (s.tickFractions now / nanosPerSecond) := rfl
@[simp] theorem State.advanceTimers_ST (now : Nat) (s : State) :
    (s.advanceTimers now).ST = countDown s.ST (s.tickFractions now / nanosPerSecond) := rfl
@[simp] theorem State.stepPointer_I (x : RegIdx) (s : State) :
    (s.stepPointer x).I = if s.q.memSetsPointer then s.I + BitVec.ofNat 16 (x.val + 1) else s.I := by
  unfold State.stepPointer; split <;> rfl

/-! ### `setReg` leaves every other field -/

@[simp] theorem State.setReg_cfg (x : RegIdx) (b : Byte) (s : State) : (s.setReg x b).cfg = s.cfg := rfl
@[simp] theorem State.setReg_q (x : RegIdx) (b : Byte) (s : State) : (s.setReg x b).q = s.q := rfl
@[simp] theorem State.setReg_mem (x : RegIdx) (b : Byte) (s : State) : (s.setReg x b).mem = s.mem := rfl
@[simp] theorem State.setReg_I (x : RegIdx) (b : Byte) (s : State) : (s.setReg x b).I = s.I := rfl
@[simp] theorem State.setReg_pc (x : RegIdx) (b : Byte) (s : State) : (s.setReg x b).pc = s.pc := rfl
@[simp] theorem State.setReg_stack (x : RegIdx) (b : Byte) (s : State) : (s.setReg x b).stack = s.stack := rfl
@[simp] theorem State.setReg_running (x : RegIdx) (b : Byte) (s : State) : (s.setReg x b).running = s.running := rfl
@[simp] theorem State.setReg_wait (x : RegIdx) (b : Byte) (s : State) : (s.setReg x b).wait = s.wait := rfl
@[simp] theorem State.setReg_FB (x : RegIdx) (b : Byte) (s : State) : (s.setReg x b).FB = s.FB := rfl
@[simp] theorem State.setReg_key (x : RegIdx) (b : Byte) (s : State) : (s.setReg x b).key = s.key := rfl
@[simp] theorem State.setReg_DT (x : RegIdx) (b : Byte) (s : State) : (s.setReg x b).DT = s.DT := rfl
@[simp] theorem State.setReg_ST (x : RegIdx) (b : Byte) (s : State) : (s.setReg x b).ST = s.ST := rfl
@[simp] theorem State.setReg_tacc (x : RegIdx) (b : Byte) (s : State) : (s.setReg x b).tacc = s.tacc := rfl
@[simp] theorem State.setReg_tlast (x : RegIdx) (b : Byte) (s : State) : (s.setReg x b).tlast = s.tlast := rfl
@[simp] theorem State.setReg_fault (x : RegIdx) (b : Byte) (s : State) : (s.setReg x b).fault = s.fault := rfl
@[simp] theorem State.setReg_inp (x : RegIdx) (b : Byte) (s : State) : (s.setReg x b).inp = s.inp := rfl
@[simp] theorem State.setReg_script (x : RegIdx) (b : Byte) (s : State) : (s.setReg x b).script = s.script := rfl
@[simp] theorem State.setReg_drawn (x : RegIdx) (b : Byte) (s : State) : (s.setReg x b).drawn = s.drawn := rfl
@[simp] theorem State.setReg_report (x : RegIdx) (b : Byte) (s : State) : (s.setReg x b).report = s.report := rfl

/-! ### `setI` leaves every other field -/

@[simp] theorem State.setI_cfg (a : Word) (s : State) : (s.setI a).cfg = s.cfg := rfl
@[simp] theorem State.setI_q (a : Word) (s : State) : (s.setI a).q = s.q := rfl
@[simp] theorem State.setI_mem (a : Word) (s : State) : (s.setI a).mem = s.mem := rfl
@[simp] theorem State.setI_V (a : Word) (s : State) : (s.setI a).V = s.V := rfl
@[simp] theorem State.setI_pc (a : Word) (s : State) : (s.setI a).pc = s.pc := rfl
@[simp] theorem State.setI_stack (a : Word) (s : State) : (s.setI a).stack = s.stack := rfl
@[simp] theorem State.setI_running (a : Word) (s : State) : (s.setI a).running = s.running := rfl
@[simp] theorem State.setI_wait (a : Word) (s : State) : (s.setI a).wait = s.wait := rfl
@[simp] theorem State.setI_FB (a : Word) (s : State) : (s.setI a).FB = s.FB := rfl
@[simp] theorem State.setI_key (a : Word) (s : State) : (s.setI a).key = s.key := rfl
@[simp] theorem State.setI_DT (a : Word) (s : State) : (s.setI a).DT = s.DT := rfl
@[simp] theorem State.setI_ST (a : Word) (s : State) : (s.setI a).ST = s.ST := rfl
@[simp] theorem State.setI_tacc (a : Word) (s : State) : (s.setI a).tacc = s.tacc := rfl
@[simp] theorem State.setI_tlast (a : Word) (s : State) : (s.setI a).tlast = s.tlast := rfl
@[simp] theorem State.setI_fault (a : Word) (s : State) : (s.setI a).fault = s.fault := rfl
@[simp] theorem State.setI_inp (a : Word) (s : State) : (s.setI a).inp = s.inp := rfl
@[simp] theorem State.setI_script (a : Word) (s : State) : (s.setI a).script = s.script := rfl
@[simp] theorem State.setI_drawn (a : Word) (s : State) : (s.setI a).drawn = s.drawn := rfl
@[simp] theorem State.setI_report (a : Word) (s : State) : (s.setI a).report = s.report := rfl

/-! ### `setPc` leaves every other field -/

@[simp] theorem State.setPc_cfg (a : Word) (s : State) : (s.setPc a).cfg = s.cfg := rfl
@[simp] theorem State.setPc_q (a : Word) (s : State) : (s.setPc a).q = s.q := rfl
@[simp] theorem State.setPc_mem (a : Word) (s : State) : (s.setPc a).mem = s.mem := rfl
@[simp] theorem State.setPc_V (a : Word) (s : State) : (s.setPc a).V = s.V := rfl
@[simp] theorem State.setPc_I (a : Word) (s : State) : (s.setPc a).I = s.I := rfl
@[simp] theorem State.setPc_stack (a : Word) (s : State) : (s.setPc a).stack = s.stack := rfl
@[simp] theorem State.setPc_running (a : Word) (s : State) : (s.setPc a).running = s.running := rfl
@[simp] theorem State.setPc_wait (a : Word) (s : State) : (s.setPc a).wait = s.wait := rfl
@[simp] theorem State.setPc_FB (a : Word) (s : State) : (s.setPc a).FB = s.FB := rfl
@[simp] theorem State.setPc_key (a : Word) (s : State) : (s.setPc a).key = s.key := rfl
@[simp] theorem State.setPc_DT (a : Word) (s : State) : (s.setPc a).DT = s.DT := rfl
@[simp] theorem State.setPc_ST (a : Word) (s : State) : (s.setPc a).ST = s.ST := rfl
@[simp] theorem State.setPc_tacc (a : Word) (s : State) : (s.setPc a).tacc = s.tacc := rfl
@[simp] theorem State.setPc_tlast (a : Word) (s : State) : (s.setPc a).tlast = s.tlast := rfl
@[simp] theorem State.setPc_fault (a : Word) (s : State) : (s.setPc a).fault = s.fault := rfl
@[simp] theorem State.setPc_inp (a : Word) (s : State) : (s.setPc a).inp = s.inp := rfl
@[simp] theorem State.setPc_script (a : Word) (s : State) : (s.setPc a).script = s.script := rfl
@[simp] theorem State.setPc_drawn (a : Word) (s : State) : (s.setPc a).drawn = s.drawn := rfl
@[simp] theorem State.setPc_report (a : Word) (s : State) : (s.setPc a).report = s.report := rfl

/-! ### `advancePc` leaves every other field -/

@[simp] theorem State.advancePc_cfg (s : State) : (s.advancePc).cfg = s.cfg := rfl
@[simp] theorem State.advancePc_q (s : State) : (s.advancePc).q = s.q := rfl
@[simp] theorem State.advancePc_mem (s : State) : (s.advancePc).mem = s.mem := rfl
@[simp] theorem State.advancePc_V (s : State) : (s.advancePc).V = s.V := rfl
@[simp] theorem State.advancePc_I (s : State) : (s.advancePc).I = s.I := rfl
@[simp] theorem State.advancePc_stack (s : State) : (s.advancePc).stack = s.stack := rfl
@[simp] theorem State.advancePc_running (s : State) : (s.advancePc).running = s.running := rfl
@[simp] theorem State.advancePc_wait (s : State) : (s.advancePc).wait = s.wait := rfl
@[simp] theorem State.advancePc_FB (s : State) : (s.advancePc).FB = s.FB := rfl
@[simp] theorem State.advancePc_key (s : State) : (s.advancePc).key = s.key := rfl
@[simp] theorem State.advancePc_DT (s : State) : (s.advancePc).DT = s.DT := rfl
@[simp] theorem State.advancePc_ST (s : State) : (s.advancePc).ST = s.ST := rfl
@[simp] theorem State.advancePc_tacc (s : State) : (s.advancePc).tacc = s.tacc := rfl
@[simp] theorem State.advancePc_tlast (s : State) : (s.advancePc).tlast = s.tlast := rfl
@[simp] theorem State.advancePc_fault (s : State) : (s.advancePc).fault = s.fault := rfl
@[simp] theorem State.advancePc_inp (s : State) : (s.advancePc).inp = s.inp := rfl
@[simp] theorem State.advancePc_script (s : State) : (s.advancePc).script = s.script := rfl
@[simp] theorem State.advancePc_drawn (s : State) : (s.advancePc).drawn = s.drawn := rfl
@[simp] theorem State.advancePc_report (s : State) : (s.advancePc).report = s.report := rfl

/-! ### `skipWhen` leaves every other field -/

@[simp] theorem State.skipWhen_cfg (c : Bool) (s : State) : (s.skipWhen c).cfg = s.cfg := by cases c <;> rfl
@[simp] theorem State.skipWhen_q (c : Bool) (s : State) : (s.skipWhen c).q = s.q := by cases c <;> rfl
@[simp] theorem State.skipWhen_mem (c : Bool) (s : State) : (s.skipWhen c).mem = s.mem := by cases c <;> rfl
@[simp] theorem State.skipWhen_V (c : Bool) (s : State) : (s.skipWhen c).V = s.V := by cases c <;> rfl
@[simp] theorem State.skipWhen_I (c : Bool) (s : State) : (s.skipWhen c).I = s.I := by cases c <;> rfl
@[simp] theorem State.skipWhen_stack (c : Bool) (s : State) : (s.skipWhen c).stack = s.stack := by cases c <;> rfl
@[simp] theorem State.skipWhen_running (c : Bool) (s : State) : (s.skipWhen c).running = s.running := by cases c <;> rfl
@[simp] theorem State.skipWhen_wait (c : Bool) (s : State) : (s.skipWhen c).wait = s.wait := by cases c <;> rfl
@[simp] theorem State.skipWhen_FB (c : Bool) (s : State) : (s.skipWhen c).FB = s.FB := by cases c <;> rfl
@[simp] theorem State.skipWhen_key (c : Bool) (s : State) : (s.skipWhen c).key = s.key := by cases c <;> rfl
@[simp] theorem State.skipWhen_DT (c : Bool) (s : State) : (s.skipWhen c).DT = s.DT := by cases c <;> rfl
@[simp] theorem State.skipWhen_ST (c : Bool) (s : State) : (s.skipWhen c).ST = s.ST := by cases c <;> rfl
@[simp] theorem State.skipWhen_tacc (c : Bool) (s : State) : (s.skipWhen c).tacc = s.tacc := by cases c <;> rfl
@[simp] theorem State.skipWhen_tlast (c : Bool) (s : State) : (s.skipWhen c).tlast = s.tlast := by cases c <;> rfl
@[simp] theorem State.skipWhen_fault (c : Bool) (s : State) : (s.skipWhen c).fault = s.fault := by cases c <;> rfl
@[simp] theorem State.skipWhen_inp (c : Bool) (s : State) : (s.skipWhen c).inp = s.inp := by cases c <;> rfl
@[simp] theorem State.skipWhen_script (c : Bool) (s : State) : (s.skipWhen c).script = s.script := by cases c <;> rfl
@[simp] theorem State.skipWhen_drawn (c : Bool) (s : State) : (s.skipWhen c).drawn = s.drawn := by cases c <;> rfl
@[simp] theorem State.skipWhen_report (c : Bool) (s : State) : (s.skipWhen c).report = s.report := by cases c <;> rfl

/-! ### `writeRF` leaves every other field -/

@[simp] theorem State.writeRF_cfg (x : RegIdx) (r f : Byte) (s : State) : (s.writeRF x r f).cfg = s.cfg := by unfold State.writeRF; split <;> rfl
@[simp] theorem State.writeRF_q (x : RegIdx) (r f : Byte) (s : State) : (s.writeRF x r f).q = s.q := by unfold State.writeRF; split <;> rfl
@[simp] theorem State.writeRF_mem (x : RegIdx) (r f : Byte) (s : State) : (s.writeRF x r f).mem = s.mem := by unfold State.writeRF; split <;> rfl
@[simp] theorem State.writeRF_I (x : RegIdx) (r f : Byte) (s : State) : (s.writeRF x r f).I = s.I := by unfold State.writeRF; split <;> rfl
@[simp] theorem State.writeRF_pc (x : RegIdx) (r f : Byte) (s : State) : (s.writeRF x r f).pc = s.pc := by unfold State.writeRF; split <;> rfl
@[simp] theorem State.writeRF_stack (x : RegIdx) (r f : Byte) (s : State) : (s.writeRF x r f).stack = s.stack := by unfold State.writeRF; split <;> rfl
@[simp] theorem State.writeRF_running (x : RegIdx) (r f : Byte) (s : State) : (s.writeRF x r f).running = s.running := by unfold State.writeRF; split <;> rfl
@[simp] theorem State.writeRF_wait (x : RegIdx) (r f : Byte) (s : State) : (s.writeRF x r f).wait = s.wait := by unfold State.writeRF; split <;> rfl
@[simp] theorem State.writeRF_FB (x : RegIdx) (r f : Byte) (s : State) : (s.writeRF x r f).FB = s.FB := by unfold State.writeRF; split <;> rfl
@[simp] theorem State.writeRF_key (x : RegIdx) (r f : Byte) (s : State) : (s.writeRF x r f).key = s.key := by unfold State.writeRF; split <;> rfl
@[simp] theorem State.writeRF_DT (x : RegIdx) (r f : Byte) (s : State) : (s.writeRF x r f).DT = s.DT := by unfold State.writeRF; split <;> rfl
@[simp] theorem State.writeRF_ST (x : RegIdx) (r f : Byte) (s : State) : (s.writeRF x r f).ST = s.ST := by unfold State.writeRF; split <;> rfl
@[simp] theorem State.writeRF_tacc (x : RegIdx) (r f : Byte) (s : State) : (s.writeRF x r f).tacc = s.tacc := by unfold State.writeRF; split <;> rfl
@[simp] theorem State.writeRF_tlast (x : RegIdx) (r f : Byte) (s : State) : (s.writeRF x r f).tlast = s.tlast := by unfold State.writeRF; split <;> rfl
@[simp] theorem State.writeRF_fault (x : RegIdx) (r f : Byte) (s : State) : (s.writeRF x r f).fault = s.fault := by unfold State.writeRF; split <;> rfl
@[simp] theorem State.writeRF_inp (x : RegIdx) (r f : Byte) (s : State) : (s.writeRF x r f).inp = s.inp := by unfold State.writeRF; split <;> rfl
@[simp] theorem State.writeRF_script (x : RegIdx) (r f : Byte) (s : State) : (s.writeRF x r f).script = s.script := by unfold State.writeRF; split <;> rfl
@[simp] theorem State.writeRF_drawn (x : RegIdx) (r f : Byte) (s : State) : (s.writeRF x r f).drawn = s.drawn := by unfold State.writeRF; split <;> rfl
@[simp] theorem State.writeRF_report (x : RegIdx) (r f : Byte) (s : State) : (s.writeRF x r f).report = s.report := by unfold State.writeRF; split <;> rfl

/-! ### `bitwiseWrite` leaves every other field -/

@[simp] theorem State.bitwiseWrite_cfg (x : RegIdx) (r : Byte) (s : State) : (s.bitwiseWrite x r).cfg = s.cfg := by unfold State.bitwiseWrite; split <;> simp
@[simp] theorem State.bitwiseWrite_q (x : RegIdx) (r : Byte) (s : State) : (s.bitwiseWrite x r).q = s.q := by unfold State.bitwiseWrite; split <;> simp
@[simp] theorem State.bitwiseWrite_mem (x : RegIdx) (r : Byte) (s : State) : (s.bitwiseWrite x r).mem = s.mem := by unfold State.bitwiseWrite; split <;> simp
@[simp] theorem State.bitwiseWrite_I (x : RegIdx) (r : Byte) (s : State) : (s.bitwiseWrite x r).I = s.I := by unfold State.bitwiseWrite; split <;> simp
@[simp] theorem State.bitwiseWrite_pc (x : RegIdx) (r : Byte) (s : State) : (s.bitwiseWrite x r).pc = s.pc := by unfold State.bitwiseWrite; split <;> simp
@[simp] theorem State.bitwiseWrite_stack (x : RegIdx) (r : Byte) (s : State) : (s.bitwiseWrite x r).stack = s.stack := by unfold State.bitwiseWrite; split <;> simp
@[simp] theorem State.bitwiseWrite_running (x : RegIdx) (r : Byte) (s : State) : (s.bitwiseWrite x r).running = s.running := by unfold State.bitwiseWrite; split <;> simp
@[simp] theorem State.bitwiseWrite_wait (x : RegIdx) (r : Byte) (s : State) : (s.bitwiseWrite x r).wait = s.wait := by unfold State.bitwiseWrite; split <;> simp
@[simp] theorem State.bitwiseWrite_FB (x : RegIdx) (r : Byte) (s : State) : (s.bitwiseWrite x r).FB = s.FB := by unfold State.bitwiseWrite; split <;> simp
@[simp] theorem State.bitwiseWrite_key (x : RegIdx) (r : Byte) (s : State) : (s.bitwiseWrite x r).key = s.key := by unfold State.bitwiseWrite; split <;> simp
@[simp] theorem State.bitwiseWrite_DT (x : RegIdx) (r : Byte) (s : State) : (s.bitwiseWrite x r).DT = s.DT := by unfold State.bitwiseWrite; split <;> simp
@[simp] theorem State.bitwiseWrite_ST (x : RegIdx) (r : Byte) (s : State) : (s.bitwiseWrite x r).ST = s.ST := by unfold State.bitwiseWrite; split <;> simp
@[simp] theorem State.bitwiseWrite_tacc (x : RegIdx) (r : Byte) (s : State) : (s.bitwiseWrite x r).tacc = s.tacc := by unfold State.bitwiseWrite; split <;> simp
@[simp] theorem State.bitwiseWrite_tlast (x : RegIdx) (r : Byte) (s : State) : (s.bitwiseWrite x r).tlast = s.tlast := by unfold State.bitwiseWrite; split <;> simp
@[simp] theorem State.bitwiseWrite_fault (x : RegIdx) (r : Byte) (s : State) : (s.bitwiseWrite x r).fault = s.fault := by unfold State.bitwiseWrite; split <;> simp
@[simp] theorem State.bitwiseWrite_inp (x : RegIdx) (r : Byte) (s : State) : (s.bitwiseWrite x r).inp = s.inp := by unfold State.bitwiseWrite; split <;> simp
@[simp] theorem State.bitwiseWrite_script (x : RegIdx) (r : Byte) (s : State) : (s.bitwiseWrite x r).script = s.script := by unfold State.bitwiseWrite; split <;> simp
@[simp] theorem State.bitwiseWrite_drawn (x : RegIdx) (r : Byte) (s : State) : (s.bitwiseWrite x r).drawn = s.drawn := by unfold State.bitwiseWrite; split <;> simp
@[simp] theorem State.bitwiseWrite_report (x : RegIdx) (r : Byte) (s : State) : (s.bitwiseWrite x r).report = s.report := by unfold State.bitwiseWrite; split <;> simp

/-! ### `stepPointer` leaves every other field -/

@[simp] theorem State.stepPointer_cfg (x : RegIdx) (s : State) : (s.stepPointer x).cfg = s.cfg := by unfold State.stepPointer; split <;> rfl
@[simp] theorem State.stepPointer_q (x : RegIdx) (s : State) : (s.stepPointer x).q = s.q := by unfold State.stepPointer; split <;> rfl
@[simp] theorem State.stepPointer_mem (x : RegIdx) (s : State) : (s.stepPointer x).mem = s.mem := by unfold State.stepPointer; split <;> rfl
@[simp] theorem State.stepPointer_V (x : RegIdx) (s : State) : (s.stepPointer x).V = s.V := by unfold State.stepPointer; split <;> rfl
@[simp] theorem State.stepPointer_pc (x : RegIdx) (s : State) : (s.stepPointer x).pc = s.pc := by unfold State.stepPointer; split <;> rfl
@[simp] theorem State.stepPointer_stack (x : RegIdx) (s : State) : (s.stepPointer x).stack = s.stack := by unfold State.stepPointer; split <;> rfl
@[simp] theorem State.stepPointer_running (x : RegIdx) (s : State) : (s.stepPointer x).running = s.running := by unfold State.stepPointer; split <;> rfl
@[simp] theorem State.stepPointer_wait (x : RegIdx) (s : State) : (s.stepPointer x).wait = s.wait := by unfold State.stepPointer; split <;> rfl
@[simp] theorem State.stepPointer_FB (x : RegIdx) (s : State) : (s.stepPointer x).FB = s.FB := by unfold State.stepPointer; split <;> rfl
@[simp] theorem State.stepPointer_key (x : RegIdx) (s : State) : (s.stepPointer x).key = s.key := by unfold State.stepPointer; split <;> rfl
@[simp] theorem State.stepPointer_DT (x : RegIdx) (s : State) : (s.stepPointer x).DT = s.DT := by unfold State.stepPointer; split <;> rfl
@[simp] theorem State.stepPointer_ST (x : RegIdx) (s : State) : (s.stepPointer x).ST = s.ST := by unfold State.stepPointer; split <;> rfl
@[simp] theorem State.stepPointer_tacc (x : RegIdx) (s : State) : (s.stepPointer x).tacc = s.tacc := by unfold State.stepPointer; split <;> rfl
@[simp] theorem State.stepPointer_tlast (x : RegIdx) (s : State) : (s.stepPointer x).tlast = s.tlast := by unfold State.stepPointer; split <;> rfl
@[simp] theorem State.stepPointer_fault (x : RegIdx) (s : State) : (s.stepPointer x).fault = s.fault := by unfold State.stepPointer; split <;> rfl
@[simp] theorem State.stepPointer_inp (x : RegIdx) (s : State) : (s.stepPointer x).inp = s.inp := by unfold State.stepPointer; split <;> rfl
@[simp] theorem State.stepPointer_script (x : RegIdx) (s : State) : (s.stepPointer x).script = s.script := by unfold State.stepPointer; split <;> rfl
@[simp] theorem State.stepPointer_drawn (x : RegIdx) (s : State) : (s.stepPointer x).drawn = s.drawn := by unfold State.stepPointer; split <;> rfl
@[simp] theorem State.stepPointer_report (x : RegIdx) (s : State) : (s.stepPointer x).report = s.report := by unfold State.stepPointer; split <;> rfl

/-! ### `advanceTimers` leaves every other field -/

@[simp] theorem State.advanceTimers_cfg (now : Nat) (s : State) : (s.advanceTimers now).cfg = s.cfg := rfl
@[simp] theorem State.advanceTimers_q (now : Nat) (s : State) : (s.advanceTimers now).q = s.q := rfl
@[simp] theorem State.advanceTimers_mem (now : Nat) (s : State) : (s.advanceTimers now).mem = s.mem := rfl
@[simp] theorem State.advanceTimers_V (now : Nat) (s : State) : (s.advanceTimers now).V = s.V := rfl
@[simp] theorem State.advanceTimers_I (now : Nat) (s : State) : (s.advanceTimers now).I = s.I := rfl
@[simp] theorem State.advanceTimers_pc (now : Nat) (s : State) : (s.advanceTimers now).pc = s.pc := rfl
@[simp] theorem State.advanceTimers_stack (now : Nat) (s : State) : (s.advanceTimers now).stack = s.stack := rfl
@[simp] theorem State.advanceTimers_running (now : Nat) (s : State) : (s.advanceTimers now).running = s.running := rfl
@[simp] theorem State.advanceTimers_wait (now : Nat) (s : State) : (s.advanceTimers now).wait = s.wait := rfl
@[simp] theorem State.advanceTimers_FB (now : Nat) (s : State) : (s.advanceTimers now).FB = s.FB := rfl
@[simp] theorem State.advanceTimers_key (now : Nat) (s : State) : (s.advanceTimers now).key = s.key := rfl
@[simp] theorem State.advanceTimers_fault (now : Nat) (s : State) : (s.advanceTimers now).fault = s.fault := rfl
@[simp] theorem State.advanceTimers_inp (now : Nat) (s : State) : (s.advanceTimers now).inp = s.inp := rfl
@[simp] theorem State.advanceTimers_script (now : Nat) (s : State) : (s.advanceTimers now).script = s.script := rfl
@[simp] theorem State.advanceTimers_drawn (now : Nat) (s : State) : (s.advanceTimers now).drawn = s.drawn := rfl
@[simp] theorem State.advanceTimers_report (now : Nat) (s : State) : (s.advanceTimers now).report = s.report := rfl

/-! ### Reading a register after a write -/

/-- A register after a write to one. -/
theorem State.reg_setReg (x k : RegIdx) (b : Byte) (s : State) : (s.setReg x b).reg k = if k = x then b else s.reg k := by
  simp only [State.reg, State.setReg, Fin.getElem_fin, Vector.getElem_set, eq_comm (a := k), Fin.ext_iff]

/-- A general register after a write to one, said of the register file. -/
theorem getElem_set_reg (v : Vector Byte 16) (x k : RegIdx) (b : Byte) : (v.set x b)[k] = if k = x then b else v[k] := by
  simp only [Fin.getElem_fin, Vector.getElem_set, eq_comm (a := k), Fin.ext_iff]

/-- Everything `write_rf` does to the registers (R151): every register but `x` and `VF` stays, and where `x` is not `VF` the order
of the two writes does not matter. -/
theorem State.writeRF_reg (x k : RegIdx) (r f : Byte) (s : State) :
    (s.writeRF x r f).V[k] =
      if k = VF then (if x = VF ∧ s.cfg.flagLast = false then r else f) else if k = x then r else s.V[k] := by
  unfold State.writeRF
  split <;> simp only [State.setReg_V, getElem_set_reg] <;> grind

end Sys2Proof.Machine
end

