-- ==== Sys2Proof/Laws/Ops.lean ====
section
/-! SUPPORT. One lemma per case of each shared operation, and the values of the flag and operand helpers. -/

namespace Sys2Proof.Machine

/-! ### The shared operations of Ops.lean -/

theorem accessOk_iff (a : Word) (n : Nat) : accessOk a n = true ↔ n = 0 ∨ a.toNat + n ≤ memSize := by
  simp [accessOk]

theorem State.memRead_ok {a : Word} {n : Nat} {s : State} (h : n = 0 ∨ a.toNat + n ≤ memSize) :
    s.memRead a n = .ok (s.mem.readBytes s.cfg a.toNat n) := by
  rw [State.memRead, if_pos ((accessOk_iff a n).2 h)]

theorem State.memRead_error {a : Word} {n : Nat} {s : State} (h0 : n ≠ 0) (h : memSize < a.toNat + n) :
    s.memRead a n = .error (.memoryOutOfRange a n) := by
  rw [State.memRead, if_neg (by rw [accessOk_iff]; omega)]

theorem State.memWrite_ok {a : Word} {bs : List Byte} {s : State} (h : a.toNat + bs.length ≤ memSize) :
    s.memWrite a bs = .ok { s with mem := s.mem.writeBytes s.cfg a.toNat bs } := by
  rw [State.memWrite, if_pos ((accessOk_iff a _).2 (.inr h))]

theorem State.memWrite_error {a : Word} {bs : List Byte} {s : State} (h0 : bs.length ≠ 0)
    (h : memSize < a.toNat + bs.length) : s.memWrite a bs = .error (.memoryOutOfRange a bs.length) := by
  rw [State.memWrite, if_neg (by rw [accessOk_iff]; omega)]

theorem State.push_ok {v : Word} {s : State} (h : s.stack.length ≠ s.cfg.stackDepth) :
    s.push v = .ok { s with stack := s.stack ++ [v] } := if_neg h

theorem State.push_error {v : Word} {s : State} (h : s.stack.length = s.cfg.stackDepth) :
    s.push v = .error (.stackOverflow v) := if_pos h

theorem State.pop_empty {s : State} (h : s.stack = []) : s.pop = none := by simp [State.pop, h]

theorem State.pop_snoc {s : State} {below : List Word} {v : Word} (h : s.stack = below ++ [v]) :
    s.pop = some (v, { s with stack := below }) := by simp [State.pop, h]

theorem registersUpTo_length (x : RegIdx) (s : State) : (registersUpTo x s).length = x.val + 1 := by
  simp [registersUpTo]

theorem registersUpTo_getD (x : RegIdx) (s : State) (k : RegIdx) (h : k.val ≤ x.val) :
    (registersUpTo x s).getD k.val 0 = s.V[k] := by
  have : k.val < x.val + 1 := by omega
  simp [registersUpTo, List.getD, this]

/-- Everything the register load loop does (R237). -/
theorem writeRegs_getElem (bs : List Byte) (j : Nat) (v : Vector Byte 16) (k : RegIdx) :
    (writeRegs j bs v)[k] = if j ≤ k.val ∧ k.val < j + bs.length then bs.getD (k.val - j) 0 else v[k] := by
  induction bs generalizing j v with
  | nil => simp [writeRegs]
  | cons b bs ih =>
    rw [writeRegs, ih]
    simp only [Fin.getElem_fin, Vector.getElem_setIfInBounds, List.length_cons]
    rcases Nat.lt_trichotomy k.val j with hlt | heq | hgt
    · rw [if_neg (by omega), if_neg (by omega), if_neg (by omega)]
    · rw [if_neg (by omega), if_pos heq.symm, if_pos (by omega)]; simp [heq]
    · by_cases hin : k.val < j + (bs.length + 1)
      · rw [if_pos (by omega), if_pos (by omega), show k.val - j = (k.val - (j + 1)) + 1 by omega]; simp
      · rw [if_neg (by omega), if_neg (by omega), if_neg (by omega)]

theorem flagByte_toNat (c : Bool) : (flagByte c).toNat = if c then 1 else 0 := by cases c <;> rfl

theorem addressOf_toNat (nnn : BitVec 12) : (addressOf nnn).toNat = nnn.toNat := by
  simp only [addressOf, BitVec.toNat_setWidth]; omega

theorem wordOf_toNat (b : Byte) : (wordOf b).toNat = b.toNat := by
  simp only [wordOf, BitVec.toNat_setWidth]; omega

theorem countDown_toNat (t : Byte) (ticks : Nat) : (countDown t ticks).toNat = t.toNat - min t.toNat ticks := by
  simp only [countDown, BitVec.toNat_ofNat]; omega

end Sys2Proof.Machine
end

