-- ==== Sys2Proof/Laws/PerInstr.lean ====
section
/-! SUPPORT. A law of every instruction as syntax, one lemma per constructor: the category of its word (spec/30_encoding.md R71, R74). -/

namespace Sys2Proof.Laws.Category

/-- The category R74 gives each variant. -/
def category : Instr → Nat
  | .clearScreen => 0x0
  | .ret => 0x0
  | .goto _ => 0x1
  | .call _ => 0x2
  | .skipIfEqualConst _ _ => 0x3
  | .skipIfNotEqualConst _ _ => 0x4
  | .skipIfEqualReg _ _ => 0x5
  | .setConst _ _ => 0x6
  | .addConst _ _ => 0x7
  | .mathAssign _ _ => 0x8
  | .mathOr _ _ => 0x8
  | .mathAnd _ _ => 0x8
  | .mathXor _ _ => 0x8
  | .mathAdd _ _ => 0x8
  | .mathSubtract _ _ => 0x8
  | .mathShiftRight _ _ => 0x8
  | .mathDifference _ _ => 0x8
  | .mathShiftLeft _ _ => 0x8
  | .skipIfNotEqualReg _ _ => 0x9
  | .setPointer _ => 0xA
  | .relativeJump _ => 0xB
  | .random _ _ => 0xC
  | .draw _ _ _ => 0xD
  | .keyPressed _ => 0xE
  | .keyNotPressed _ => 0xE
  | .getDelay _ => 0xF
  | .waitKeyPress _ => 0xF
  | .setDelay _ => 0xF
  | .setSound _ => 0xF
  | .addPointer _ => 0xF
  | .fontGlyph _ => 0xF
  | .splitNumber _ => 0xF
  | .registerDump _ => 0xF
  | .registerLoad _ => 0xF
  | .mathUnknown _ _ _ => 0x8
  | .undefinedZero _ => 0x0
  | .undefinedKey _ => 0xE
  | .undefinedMisc _ => 0xF

/-- The word of a well-formed instruction has the category R74 gives its variant. -/
def Statement (i : Instr) : Prop := i.wf = true → (encode i).toNat / 4096 = category i

theorem of_fieldC {i : Instr} (h : (fieldC (encode i)).toNat = category i) : Statement i := fun _ => by
  rw [← fieldC_toNat, h]

theorem of_raw {c : BitVec 4} {raw : Word} {b : Bool} (h : (raw.extractLsb' 12 4 == c && b) = true) :
    raw.toNat / 4096 = c.toNat := by
  rw [Bool.and_eq_true, beq_iff_eq] at h
  rw [← fieldC_toNat, ← h.1]; rfl

theorem clearScreen : Statement .clearScreen := of_fieldC rfl
theorem ret : Statement .ret := of_fieldC rfl
theorem goto (nnn : BitVec 12) : Statement (.goto nnn) := of_fieldC (by simp only [encode, fieldC_encodeA]; rfl)
theorem call (nnn : BitVec 12) : Statement (.call nnn) := of_fieldC (by simp only [encode, fieldC_encodeA]; rfl)
theorem skipIfEqualConst (x : RegIdx) (nn : Byte) : Statement (.skipIfEqualConst x nn) := of_fieldC (by simp only [encode, fieldC_encodeRB]; rfl)
theorem skipIfNotEqualConst (x : RegIdx) (nn : Byte) : Statement (.skipIfNotEqualConst x nn) := of_fieldC (by simp only [encode, fieldC_encodeRB]; rfl)
theorem skipIfEqualReg (x y : RegIdx) : Statement (.skipIfEqualReg x y) := of_fieldC (by simp only [encode, fieldC_encodeRRN]; rfl)
theorem setConst (x : RegIdx) (nn : Byte) : Statement (.setConst x nn) := of_fieldC (by simp only [encode, fieldC_encodeRB]; rfl)
theorem addConst (x : RegIdx) (nn : Byte) : Statement (.addConst x nn) := of_fieldC (by simp only [encode, fieldC_encodeRB]; rfl)
theorem mathAssign (x y : RegIdx) : Statement (.mathAssign x y) := of_fieldC (by simp only [encode, fieldC_encodeRRN]; rfl)
theorem mathOr (x y : RegIdx) : Statement (.mathOr x y) := of_fieldC (by simp only [encode, fieldC_encodeRRN]; rfl)
theorem mathAnd (x y : RegIdx) : Statement (.mathAnd x y) := of_fieldC (by simp only [encode, fieldC_encodeRRN]; rfl)
theorem mathXor (x y : RegIdx) : Statement (.mathXor x y) := of_fieldC (by simp only [encode, fieldC_encodeRRN]; rfl)
theorem mathAdd (x y : RegIdx) : Statement (.mathAdd x y) := of_fieldC (by simp only [encode, fieldC_encodeRRN]; rfl)
theorem mathSubtract (x y : RegIdx) : Statement (.mathSubtract x y) := of_fieldC (by simp only [encode, fieldC_encodeRRN]; rfl)
theorem mathShiftRight (x y : RegIdx) : Statement (.mathShiftRight x y) := of_fieldC (by simp only [encode, fieldC_encodeRRN]; rfl)
theorem mathDifference (x y : RegIdx) : Statement (.mathDifference x y) := of_fieldC (by simp only [encode, fieldC_encodeRRN]; rfl)
theorem mathShiftLeft (x y : RegIdx) : Statement (.mathShiftLeft x y) := of_fieldC (by simp only [encode, fieldC_encodeRRN]; rfl)
theorem skipIfNotEqualReg (x y : RegIdx) : Statement (.skipIfNotEqualReg x y) := of_fieldC (by simp only [encode, fieldC_encodeRRN]; rfl)
theorem setPointer (nnn : BitVec 12) : Statement (.setPointer nnn) := of_fieldC (by simp only [encode, fieldC_encodeA]; rfl)
theorem relativeJump (nnn : BitVec 12) : Statement (.relativeJump nnn) := of_fieldC (by simp only [encode, fieldC_encodeA]; rfl)
theorem random (x : RegIdx) (nn : Byte) : Statement (.random x nn) := of_fieldC (by simp only [encode, fieldC_encodeRB]; rfl)
theorem draw (x y : RegIdx) (n : Fin 16) : Statement (.draw x y n) := of_fieldC (by simp only [encode, fieldC_encodeRRN]; rfl)
theorem keyPressed (x : RegIdx) : Statement (.keyPressed x) := of_fieldC (by simp only [encode, fieldC_encodeRB]; rfl)
theorem keyNotPressed (x : RegIdx) : Statement (.keyNotPressed x) := of_fieldC (by simp only [encode, fieldC_encodeRB]; rfl)
theorem getDelay (x : RegIdx) : Statement (.getDelay x) := of_fieldC (by simp only [encode, fieldC_encodeRB]; rfl)
theorem waitKeyPress (x : RegIdx) : Statement (.waitKeyPress x) := of_fieldC (by simp only [encode, fieldC_encodeRB]; rfl)
theorem setDelay (x : RegIdx) : Statement (.setDelay x) := of_fieldC (by simp only [encode, fieldC_encodeRB]; rfl)
theorem setSound (x : RegIdx) : Statement (.setSound x) := of_fieldC (by simp only [encode, fieldC_encodeRB]; rfl)
theorem addPointer (x : RegIdx) : Statement (.addPointer x) := of_fieldC (by simp only [encode, fieldC_encodeRB]; rfl)
theorem fontGlyph (x : RegIdx) : Statement (.fontGlyph x) := of_fieldC (by simp only [encode, fieldC_encodeRB]; rfl)
theorem splitNumber (x : RegIdx) : Statement (.splitNumber x) := of_fieldC (by simp only [encode, fieldC_encodeRB]; rfl)
theorem registerDump (x : RegIdx) : Statement (.registerDump x) := of_fieldC (by simp only [encode, fieldC_encodeRB]; rfl)
theorem registerLoad (x : RegIdx) : Statement (.registerLoad x) := of_fieldC (by simp only [encode, fieldC_encodeRB]; rfl)
theorem mathUnknown (x y : RegIdx) (sub : BitVec 4) : Statement (.mathUnknown x y sub) := of_fieldC (by simp only [encode, fieldC_encodeRRN]; rfl)
theorem undefinedZero (raw : Word) : Statement (.undefinedZero raw) := of_raw
theorem undefinedKey (raw : Word) : Statement (.undefinedKey raw) := of_raw
theorem undefinedMisc (raw : Word) : Statement (.undefinedMisc raw) := of_raw

end Sys2Proof.Laws.Category
end

