-- ==== Sys2Proof/Laws/Step.lean ====
section
/-! SUPPORT. What one event of the system can be, and what a step call is phase by phase (spec/40_execution_cycle.md R100). -/

namespace Sys2Proof.Machine

/-- A step whose next event is a step call is `callStep` on the state with the inputs taken. -/
theorem step_of_calls {s s0 : State} {inp : StepInput} (h : s.calls inp s0) : step s = callStep s0 := by
  rcases h with ⟨rest, h, rfl⟩ | ⟨h, rfl, rfl⟩ <;> simp only [step, nextEvent, h, hostEvent]

/-- Taking the inputs changes nothing but the host's side of the state. -/
theorem calls_eq {s s0 : State} {inp : StepInput} (h : s.calls inp s0) :
    s0 = { s with inp := inp, script := s0.script, drawn := s0.drawn } := by
  rcases h with ⟨rest, h, rfl⟩ | ⟨h, rfl, rfl⟩ <;> rfl

/-- Everything one event can be: a step call, or one of the host's five calls between steps. -/
theorem step_cases (s : State) :
    (∃ inp s0, s.calls inp s0 ∧ step s = callStep s0) ∨
    (∃ k rest, s.script = .press k :: rest ∧ step s = .next ({ s with script := rest }.press k)) ∨
    (∃ k rest, s.script = .release k :: rest ∧ step s = .next ({ s with script := rest }.release k)) ∨
    (∃ q rest, s.script = .setQuirks q :: rest ∧ step s = .next ({ s with script := rest }.setQuirks q)) ∨
    (∃ bs rest, s.script = .load bs :: rest ∧ step s = .next ({ s with script := rest }.load bs)) ∨
    (∃ now rest, s.script = .reset now :: rest ∧ step s = .next ({ s with script := rest }.resetAt now)) := by
  cases h : s.script with
  | nil => exact .inl ⟨s.freeInput, _, .inr ⟨h, rfl, rfl⟩, step_of_calls (.inr ⟨h, rfl, rfl⟩)⟩
  | cons e rest =>
    have hs : step s = hostEvent e { s with script := rest } := by simp only [step, nextEvent, h]
    cases e with
    | call inp => exact .inl ⟨inp, _, .inl ⟨rest, h, rfl⟩, step_of_calls (.inl ⟨rest, h, rfl⟩)⟩
    | press k => exact .inr (.inl ⟨k, rest, rfl, hs⟩)
    | release k => exact .inr (.inr (.inl ⟨k, rest, rfl, hs⟩))
    | setQuirks q => exact .inr (.inr (.inr (.inl ⟨q, rest, rfl, hs⟩)))
    | load bs => exact .inr (.inr (.inr (.inr (.inl ⟨bs, rest, rfl, hs⟩))))
    | reset now => exact .inr (.inr (.inr (.inr (.inr ⟨now, rest, rfl, hs⟩))))

/-- Everything a step call can do: stuck, halted, no transition for a decreasing time, waiting, a fetch fault, a hold, or
the decoded instruction, the last four after the timer advance. -/
theorem callStep_cases (s : State) :
    (∃ f, s.fault = some f ∧ callStep s = .fault (.stuck f)) ∨
    (s.fault = none ∧ s.running = false ∧ callStep s = .next { s with report := .halted }) ∨
    (s.fault = none ∧ s.running = true ∧ s.inp.now < s.tlast ∧ callStep s = .fault .timeBackwards) ∨
    (s.fault = none ∧ s.running = true ∧ s.tlast ≤ s.inp.now ∧ ∃ b, b = s.advanceTimers s.inp.now ∧
      ((∃ r, s.wait = some r ∧ callStep s = .next { b with report := .waiting }) ∨
       (s.wait = none ∧ ∃ f, s.fetch = .error f ∧ callStep s = raiseFault f b) ∨
       (s.wait = none ∧ ∃ op, s.fetch = .ok op ∧ holds (decode op) b = true ∧
          callStep s = .next { b with report := .held }) ∨
       (s.wait = none ∧ ∃ op, s.fetch = .ok op ∧ holds (decode op) b = false ∧
          callStep s = exec (decode op) b.advancePc))) := by
  cases hf : s.fault with
  | some f => exact .inl ⟨f, rfl, by simp only [callStep, hf]⟩
  | none =>
    cases hr : s.running with
    | false => exact .inr (.inl ⟨rfl, rfl, by simp [callStep, hf, hr]⟩)
    | true =>
      by_cases ht : s.inp.now < s.tlast
      · exact .inr (.inr (.inl ⟨rfl, rfl, ht, by simp [callStep, hf, hr, ht]⟩))
      · have hc : callStep s = runUnlessWaiting (s.advanceTimers s.inp.now) := by simp [callStep, hf, hr, ht]
        refine .inr (.inr (.inr ⟨rfl, rfl, by omega, _, rfl, ?_⟩))
        cases hw : s.wait with
        | some r => exact .inl ⟨r, rfl, by simp [hc, runUnlessWaiting, hw]⟩
        | none =>
          have hi : callStep s = runInstruction (s.advanceTimers s.inp.now) := by simp [hc, runUnlessWaiting, hw]
          have hfe : (s.advanceTimers s.inp.now).fetch = s.fetch := rfl
          cases he : s.fetch with
          | error f => exact .inr (.inl ⟨rfl, f, rfl, by rw [hi, runInstruction, hfe, he]⟩)
          | ok op =>
            cases hh : holds (decode op) (s.advanceTimers s.inp.now) with
            | true => exact .inr (.inr (.inl ⟨rfl, op, rfl, hh, by simp [hi, runInstruction, hfe, he, hh]⟩))
            | false => exact .inr (.inr (.inr ⟨rfl, op, rfl, hh, by simp [hi, runInstruction, hfe, he, hh]⟩))

/-- Running mode, as its three facts (R261). -/
theorem mode_running_iff (s : State) : s.mode = .running ↔ s.fault = none ∧ s.running = true ∧ s.wait = none := by
  unfold State.mode
  cases s.fault <;> cases s.running <;> cases s.wait <;> simp

/-- Key-waiting mode, as its three facts (R261). -/
theorem mode_keyWaiting_iff (s : State) :
    s.mode = .keyWaiting ↔ s.fault = none ∧ s.running = true ∧ ∃ r, s.wait = some r := by
  unfold State.mode
  cases s.fault <;> cases s.running <;> cases s.wait <;> simp

/-- A fetch that succeeds is at an even `pc` with the word inside the store (R104, R105). -/
theorem fetch_ok_bounds {s : State} {op : Word} (h : s.fetch = .ok op) :
    s.pc.toNat % 2 = 0 ∧ s.pc.toNat + 2 ≤ memSize := by
  unfold State.fetch at h
  split at h
  · cases h
  · split at h
    · cases h
    · omega

/-- Every instruction answers a next state: errors and faults are recorded, not stops (R250, R254). -/
theorem exec_next (i : Instr) (s : State) : ∃ t, exec i s = .next t := by
  cases i <;> simp only [exec, execClearScreen, execReturn, execGoto, execCall, execSkipIfEqualConst,
    execSkipIfNotEqualConst, execSkipIfEqualReg, execSetConst, execAddConst, execMathAssign, execMathOr, execMathAnd,
    execMathXor, execMathAdd, execMathSubtract, execMathShiftRight, execMathDifference, execMathShiftLeft,
    execSkipIfNotEqualReg, execSetPointer, execRelativeJump, execRandom, execDraw, execKeyPressed, execKeyNotPressed,
    execGetDelay, execWaitKeyPress, execSetDelay, execSetSound, execAddPointer, execFontGlyph, execSplitNumber,
    execRegisterDump, execRegisterLoad, execMathUnknown, execUndefinedZero, execUndefinedKey, execUndefinedMisc,
    finish, raiseError, raiseFault] <;> repeat' (first | exact ⟨_, rfl⟩ | split)

/-- The next step of a running machine with a table word placed runs exactly its instruction (`withFetchWord`). -/
theorem step_withFetchWord {s : State} (hm : s.mode = .running) (he : s.pc.toNat % 2 = 0) (hp : s.pc.toNat + 2 ≤ memSize)
    (hs : Memory.wf s.cfg s.mem) (nbits w : Nat) :
    ∃ b, step (s.withFetchWord nbits w) = exec (decode (tableWord nbits w)) b ∧ b.pc = s.pc + 2 ∧ b.V = s.V ∧
      b.I = s.I ∧ b.stack = s.stack ∧ b.mem = s.mem.writeBytes s.cfg s.pc.toNat [highByte (tableWord nbits w), lowByte (tableWord nbits w)] := by
  obtain ⟨hf, hr, hw⟩ := (mode_running_iff s).1 hm
  have hc : (s.withFetchWord nbits w).calls ⟨s.tlast, true, s.inp.rand⟩ _ := .inl ⟨s.script, rfl, rfl⟩
  have hst : s.storeAtPc (tableWord nbits w) =
      { s with mem := s.mem.writeBytes s.cfg s.pc.toNat [highByte (tableWord nbits w), lowByte (tableWord nbits w)] } := if_pos hp
  rw [step_of_calls hc]
  generalize hb : ({ s.withFetchWord nbits w with script := s.script, inp := ⟨s.tlast, true, s.inp.rand⟩ } : State) = b0
  have hb' : b0 = { s with
      mem := s.mem.writeBytes s.cfg s.pc.toNat [highByte (tableWord nbits w), lowByte (tableWord nbits w)]
      script := s.script, inp := ⟨s.tlast, true, s.inp.rand⟩ } := by rw [← hb, State.withFetchWord, hst]
  have hfe : b0.fetch = .ok (tableWord nbits w) := by
    rw [hb', State.fetch, if_neg (by show ¬ s.pc.toNat % 2 = 1; omega), if_neg (by show ¬ memSize < s.pc.toNat + 2; omega)]
    simp only [State.byteAt, Memory.read_writeBytes _ _ hs.1]
    simp
  rcases callStep_cases b0 with ⟨f, h, -⟩ | ⟨-, h, -⟩ | ⟨-, -, h, -⟩ | ⟨-, -, -, b, hbe, h⟩
  · rw [hb'] at h; simp [hf] at h
  · rw [hb'] at h; simp [hr] at h
  · rw [hb'] at h; simp at h
  · rcases h with ⟨r, h, -⟩ | ⟨-, f, h, -⟩ | ⟨-, op, h, hh, -⟩ | ⟨-, op, h, -, hx⟩
    · rw [hb'] at h; simp [hw] at h
    · rw [hfe] at h; cases h
    · rw [hbe, hb'] at hh; simp [holds] at hh
    · rw [hfe] at h; cases h
      refine ⟨_, hx, ?_⟩
      rw [hbe, hb']
      exact ⟨rfl, rfl, rfl, rfl, rfl⟩

end Sys2Proof.Machine
end

