-- ==== Sys2Proof/Tests/Slice0.lean ====
section
/-! SUPPORT. Small tests on fixed values, from the tables and the worked vectors of spec/95_test_vectors.md (the vector's
id stands in each comment), and for each statement with hypotheses a witness that meets them. -/

namespace Sys2Proof.Tests

open Sys2Proof Sys2Proof.Machine Sys2Proof.Claims

/-! ### Helpers -/

/-- One field of the state an answer gives, if it gives a next state. -/
def fieldOf {α : Type} (f : State → α) : Result → Option α
  | .next t => some (f t)
  | .fault _ => none
  | .refused _ => none

/-- One field of the state after the step that runs word `w` from `s`. -/
def after {α : Type} (w : Nat) (s : State) (f : State → α) : Option α := fieldOf f (step (s.withFetchWord 16 w))

/-- `State.reset` with `V[x] = a` and `V[y] = b`. -/
def withRegs (x : RegIdx) (a : Byte) (y : RegIdx) (b : Byte) : State := (State.reset.setReg x a).setReg y b

/-- `s` with `bs` written at address `a`. -/
def withBytes (a : Nat) (bs : List Byte) (s : State) : State := { s with mem := s.mem.writeBytes s.cfg a bs }

/-- `s` with one event to come. -/
def withEvent (e : HostEvent) (s : State) : State := { s with script := [e] }

/-- The answer is a next state with `p`. -/
def nextWith (p : State → Bool) : Result → Bool
  | .next t => p t
  | .fault _ => false
  | .refused _ => false

theorem exists_of_nextWith {p : State → Bool} {r : Result} (h : nextWith p r = true) : ∃ t, r = .next t ∧ p t = true := by
  cases r with
  | next t => exact ⟨t, rfl, h⟩
  | fault f => cases h
  | refused f => cases h

/-! ### WellFormed: the checks refuse ill-formed terms (spec/30_encoding.md R77, R79, R80) -/

theorem test_wf_math_code : Instr.wf (.mathUnknown 1 2 0x3) = false ∧ Instr.wf (.mathUnknown 1 2 0xE) = false ∧
    Instr.wf (.mathUnknown 1 2 0x8) = true := by decide

theorem test_wf_zero_word : Instr.wf (.undefinedZero 0x00E0) = false ∧ Instr.wf (.undefinedZero 0x00EE) = false ∧
    Instr.wf (.undefinedZero 0x1000) = false ∧ Instr.wf (.undefinedZero 0x0000) = true := by decide

theorem test_wf_key_word : Instr.wf (.undefinedKey 0xE19E) = false ∧ Instr.wf (.undefinedKey 0xF19F) = false ∧
    Instr.wf (.undefinedKey 0xE19F) = true := by decide

theorem test_wf_misc_word : Instr.wf (.undefinedMisc 0xF107) = false ∧ Instr.wf (.undefinedMisc 0xE107) = false ∧
    Instr.wf (.undefinedMisc 0xF100) = true := by decide

/-! ### Decode: every constructor, words written out from the patterns of spec/30_encoding.md R84 -/

theorem test_decode_exact : decode 0b0000000011100000 = .clearScreen ∧ decode 0b0000000011101110 = .ret ∧
    decode 0x0000 = .undefinedZero 0x0000 ∧ decode 0x00E1 = .undefinedZero 0x00E1 := by decide

theorem test_decode_control_flow : decode 0b0001101010111100 = .goto 0xABC ∧ decode 0x2FFF = .call 0xFFF ∧
    decode 0b0011101001111111 = .skipIfEqualConst 0xA 0x7F ∧ decode 0x4A7F = .skipIfNotEqualConst 0xA 0x7F ∧
    decode 0x5120 = .skipIfEqualReg 1 2 ∧ decode 0b0101000100101111 = .skipIfEqualReg 1 2 ∧
    decode 0x9125 = .skipIfNotEqualReg 1 2 ∧ decode 0b1011001111111111 = .relativeJump 0x3FF := by decide

theorem test_decode_constants : decode 0b0110111111111111 = .setConst 0xF 0xFF ∧ decode 0x7001 = .addConst 0 0x01 ∧
    decode 0b1100000000001111 = .random 0 0x0F := by decide

theorem test_decode_math : decode 0b1000101010110000 = .mathAssign 0xA 0xB ∧ decode 0x8AB1 = .mathOr 0xA 0xB ∧
    decode 0x8AB2 = .mathAnd 0xA 0xB ∧ decode 0x8AB3 = .mathXor 0xA 0xB ∧ decode 0x8AB4 = .mathAdd 0xA 0xB ∧
    decode 0x8AB5 = .mathSubtract 0xA 0xB ∧ decode 0x8AB6 = .mathShiftRight 0xA 0xB ∧
    decode 0x8AB7 = .mathDifference 0xA 0xB ∧ decode 0b1000101010111110 = .mathShiftLeft 0xA 0xB ∧
    decode 0x8AB8 = .mathUnknown 0xA 0xB 0x8 ∧ decode 0x8ABF = .mathUnknown 0xA 0xB 0xF := by decide

theorem test_decode_display : decode 0b1101000100100101 = .draw 1 2 5 ∧ decode 0xD120 = .draw 1 2 0 := by decide

theorem test_decode_keypad : decode 0b1110000110011110 = .keyPressed 1 ∧ decode 0xE1A1 = .keyNotPressed 1 ∧
    decode 0b1111000100001010 = .waitKeyPress 1 ∧ decode 0xE19F = .undefinedKey 0xE19F := by decide

theorem test_decode_timer_pointer_memory : decode 0xF107 = .getDelay 1 ∧ decode 0xF115 = .setDelay 1 ∧
    decode 0xF118 = .setSound 1 ∧ decode 0b1010000100100011 = .setPointer 0x123 ∧ decode 0xF11E = .addPointer 1 ∧
    decode 0xF129 = .fontGlyph 1 ∧ decode 0xF133 = .splitNumber 1 ∧ decode 0xF155 = .registerDump 1 ∧
    decode 0b1111000101100101 = .registerLoad 1 ∧ decode 0xF100 = .undefinedMisc 0xF100 ∧
    decode 0xFFFF = .undefinedMisc 0xFFFF := by decide

theorem test_decode_table_word : decodeTableWord 16 0xD125 = some (.draw 1 2 5) ∧ decodeTableWord 24 0xD125 = none ∧
    decodeBytes [0xD1] = .error .shorterThanAWord := ⟨by decide, by decide, rfl⟩

/-! ### Reset and the step cycle -/

/-- R41, R7: the values after reset the spec gives. -/
theorem test_reset : State.reset.pc = 0x200 ∧ State.reset.I = 0 ∧ State.reset.V = Vector.replicate 16 0 ∧
    State.reset.stack = [] ∧ State.reset.running = true ∧ State.reset.wait = none ∧ State.reset.fault = none := by decide

/-- R34, R41: glyph 0xF ends at 0x04F, and every other byte is zero. -/
theorem test_reset_memory : State.reset.byteAt 0x4F = 0x80 ∧ State.reset.byteAt 0x4B = 0xF0 ∧
    State.reset.byteAt 0x50 = 0 ∧ State.reset.byteAt 0xFFF = 0 := by decide

/-- RS2: with no program loaded the first step reads 0x0000. The step's inputs are the free ones. -/
theorem test_first_step : fieldOf State.report (step State.reset) = some (.err (.invalidOpcode 0x0000)) ∧
    fieldOf State.pc (step State.reset) = some 0x202 := by decide

/-- SC1. -/
theorem test_misaligned_fetch : after 0x6001 { State.reset with pc := 0x201 } (fun t => (t.fault, t.pc)) =
    some (some (.misalignedFetch 0x201), 0x201) := by decide

/-- SC3. -/
theorem test_fetch_out_of_range : after 0x6001 { State.reset with pc := 0x1000 } State.fault =
    some (some (.fetchOutOfRange 0x1000)) := by decide

/-- SC5: the timers advance while a key is awaited. -/
theorem test_waiting : fieldOf (fun t => (t.report, t.DT, t.pc))
    (step (withEvent (.call ⟨1000000000, true, 0⟩) { State.reset with wait := some 3, DT := 10 })) =
    some (.waiting, 0, 0x200) := by decide

/-- SC6. -/
theorem test_held : fieldOf (fun t => (t.report, t.pc, t.FB))
    (step (withEvent (.call ⟨0, false, 0⟩)
      (withBytes 0x200 [0xD0, 0x11] { State.reset with q := { Quirks.allClear with displayWait := true } }))) =
    some (.held, 0x200, []) := by decide

/-- TM8: the first tick at 60 a second falls at 16666667 ns. -/
theorem test_first_tick : fieldOf (fun t => (t.tacc, t.DT))
    (step (withEvent (.call ⟨16666667, true, 0⟩) { State.reset with DT := 10 })) = some (20, 9) := by decide

/-! ### One or two vectors for each instruction -/

/-- DI1. -/
theorem test_clearScreen : after 0x00E0 { State.reset with FB := [3, 70] } State.FB = some [] := by decide
/-- CF6. -/
theorem test_ret : after 0x00EE { State.reset with stack := [0x204] } (fun t => (t.pc, t.stack)) = some (0x204, []) := by decide
/-- CF7. -/
theorem test_ret_empty : after 0x00EE State.reset (fun t => (t.report, t.running, t.pc)) =
    some (.err .invalidState, false, 0x202) := by decide
/-- CF1. -/
theorem test_goto : after 0x1234 State.reset State.pc = some 0x234 := by decide
/-- CF4. -/
theorem test_call : after 0x2300 State.reset (fun t => (t.pc, t.stack)) = some (0x300, [0x202]) := by decide
/-- CF5. -/
theorem test_call_full : after 0x2300 { State.reset with stack := List.replicate 8 0x204 } (fun t => (t.fault, t.pc)) =
    some (some (.stackOverflow 0x202), 0x202) := by decide
/-- CF8. -/
theorem test_skipIfEqualConst : after 0x3342 (withRegs 3 0x42 0 0) State.pc = some 0x204 ∧
    after 0x3343 (withRegs 3 0x42 0 0) State.pc = some 0x202 := by decide
/-- CF9. -/
theorem test_skipIfNotEqualConst : after 0x4342 (withRegs 3 0x42 0 0) State.pc = some 0x202 ∧
    after 0x4343 (withRegs 3 0x42 0 0) State.pc = some 0x204 := by decide
/-- CF10, CF11. -/
theorem test_skipIfEqualReg : after 0x512F (withRegs 1 7 2 7) State.pc = some 0x204 ∧
    after 0x5120 (withRegs 1 7 2 8) State.pc = some 0x202 := by decide
/-- CF11, CF12. -/
theorem test_skipIfNotEqualReg : after 0x9120 (withRegs 1 7 2 8) State.pc = some 0x204 ∧
    after 0x9110 (withRegs 1 7 2 8) State.pc = some 0x202 := by decide
/-- CF17. -/
theorem test_relativeJump : after 0xBFFF (withRegs 0 0xFF 1 0) State.pc = some 0x10FE := by decide
/-- CF15. -/
theorem test_relativeJump_quirk :
    after 0xB300 { withRegs 3 0x20 0 0x10 with q := { Quirks.allClear with altJumpRegister := true } } State.pc =
      some 0x320 := by decide
/-- RK1. -/
theorem test_setConst : after 0x6A9C State.reset (State.reg 10) = some 0x9C := by decide
/-- RK4: the sum wraps and no flag is set. -/
theorem test_addConst : after 0x7001 (withRegs 0 0xFF VF 0) (fun t => (t.reg 0, t.reg VF)) = some (0x00, 0) := by decide
/-- RK6. -/
theorem test_random : after 0xC30F { State.reset with inp := ⟨0, true, 0xB7⟩ } (State.reg 3) = some 0x07 := by decide
/-- MA1. -/
theorem test_mathAssign : after 0x8120 (withRegs 1 0 2 0x33) (State.reg 1) = some 0x33 := by decide
/-- MA3 with `VF = 7` before, and MA2. -/
theorem test_mathOr :
    after 0x8121 { (withRegs 1 0x0F 2 0xF0).setReg VF 7 with q := { Quirks.allClear with flagReset := true } }
      (fun t => (t.reg 1, t.reg VF)) = some (0xFF, 0) ∧
    after 0x8121 ((withRegs 1 0x0F 2 0xF0).setReg VF 7) (fun t => (t.reg 1, t.reg VF)) = some (0xFF, 7) := by decide
/-- MA5. -/
theorem test_mathAnd : after 0x8122 ((withRegs 1 0x3C 2 0x0F).setReg VF 1) (fun t => (t.reg 1, t.reg VF)) =
    some (0x0C, 1) := by decide
/-- MA6. -/
theorem test_mathXor : after 0x8113 (withRegs 1 0xAB 2 0) (State.reg 1) = some 0 := by decide
/-- MA8. -/
theorem test_mathAdd : after 0x8124 (withRegs 1 0x80 2 0x80) (fun t => (t.reg 1, t.reg VF)) = some (0, 1) := by decide
/-- MA11: the flag is written last, over the result. -/
theorem test_mathAdd_vf : after 0x8F14 (withRegs VF 0x10 1 0x02) (State.reg VF) = some 0 := by decide
/-- MA14: not 1. -/
theorem test_mathSubtract_zero : after 0x8125 (withRegs 1 7 2 0) (fun t => (t.reg 1, t.reg VF)) = some (7, 0) := by decide
/-- MA13. -/
theorem test_mathSubtract : after 0x8125 (withRegs 1 3 2 5) (fun t => (t.reg 1, t.reg VF)) = some (0xFE, 0) := by decide
/-- MA25. -/
theorem test_mathShiftRight : after 0x8126 (withRegs 1 0x05 2 0xF0) (fun t => (t.reg 1, t.reg VF)) = some (0x02, 1) := by decide
/-- MA26. -/
theorem test_mathShiftRight_quirk :
    after 0x8126 { withRegs 1 0x05 2 0xF0 with q := { Quirks.allClear with altShiftSource := true } }
      (fun t => (t.reg 1, t.reg VF)) = some (0x78, 0) := by decide
/-- MA19. -/
theorem test_mathDifference : after 0x8127 (withRegs 1 3 2 5) (fun t => (t.reg 1, t.reg VF)) = some (2, 0) := by decide
/-- MA22 under the other two readings. -/
theorem test_mathDifference_readings :
    after 0x8127 { State.reset with cfg := { Config.default with differenceFlag := .destLessEq } } (State.reg VF) = some 1 ∧
    after 0x8127 { State.reset with cfg := { Config.default with differenceFlag := .minuendGreater } } (State.reg VF) =
      some 0 := by decide
/-- MA31. -/
theorem test_mathShiftLeft : after 0x812E (withRegs 1 0x41 2 0x81) (fun t => (t.reg 1, t.reg VF)) = some (0x82, 0) := by decide
/-- MA30. -/
theorem test_mathShiftLeft_quirk :
    after 0x812E { withRegs 1 0 2 0x81 with q := { Quirks.allClear with altShiftSource := true } }
      (fun t => (t.reg 1, t.reg VF, t.reg 2)) = some (0x02, 1, 0x81) := by decide
/-- MA33. -/
theorem test_mathUnknown : after 0x812F State.reset (fun t => (t.report, t.pc)) =
    some (.err (.invalidMathOperation 0xF), 0x202) := by decide
/-- DI4 and DI5: clipped, and wrapped. -/
theorem test_draw_edges :
    after 0xD012 { withBytes 0x300 [0xFF, 0xFF] (withRegs 0 60 1 31) with
      I := 0x300, q := { Quirks.allClear with partialWrap := true } } State.FB = some [2044, 2045, 2046, 2047] ∧
    after 0xD012 { withBytes 0x300 [0xFF, 0xFF] (withRegs 0 60 1 31) with I := 0x300 } (fun t => t.FB.length) =
      some 16 := by decide
/-- DI8. -/
theorem test_draw_collision :
    after 0xD011 { withBytes 0x300 [0xC0] State.reset with I := 0x300, FB := [0] } (fun t => (t.FB, t.reg VF)) =
      some ([1], 1) := by decide
/-- KP1, KP3. -/
theorem test_keyPressed :
    after 0xE29E { withRegs 2 5 0 0 with key := State.reset.key.set 5 true } State.pc = some 0x204 ∧
    after 0xE29E (withRegs 2 5 0 0) State.pc = some 0x202 := by decide
/-- KP4. -/
theorem test_keyPressed_fault : after 0xE29E (withRegs 2 16 0 0) State.fault = some (some (.keyOutOfRange 16)) := by decide
/-- KP2, KP3. -/
theorem test_keyNotPressed :
    after 0xE2A1 { withRegs 2 5 0 0 with key := State.reset.key.set 5 true } State.pc = some 0x202 ∧
    after 0xE2A1 (withRegs 2 5 0 0) State.pc = some 0x204 := by decide
/-- TM1. -/
theorem test_getDelay : after 0xF507 { State.reset with DT := 0x20 } (State.reg 5) = some 0x20 := by decide
/-- KP5. -/
theorem test_waitKeyPress : after 0xF30A State.reset (fun t => (t.wait, t.pc)) = some (some 3, 0x202) := by decide
/-- TM2. -/
theorem test_setDelay : after 0xF015 (withRegs 0 0x3C 1 0) State.DT = some 60 := by decide
/-- TM3. -/
theorem test_setSound : after 0xF118 (withRegs 1 2 0 0) State.ST = some 2 := by decide
/-- The word `0xA123` of the decoder vectors, R223. -/
theorem test_setPointer : after 0xA123 State.reset State.I = some 0x123 := by decide
/-- TM12. -/
theorem test_addPointer : after 0xF01E { withRegs 0 1 1 0 with I := 0xFFFF } State.I = some 0 := by decide
/-- TM14. -/
theorem test_fontGlyph : after 0xF429 (withRegs 4 0x0A 0 0) State.I = some 0x32 := by decide
/-- TM15. -/
theorem test_fontGlyph_fault : after 0xF429 (withRegs 4 0x10 0 0) State.fault =
    some (some (.fontDigitOutOfRange 0x10)) := by decide
/-- TM16. -/
theorem test_splitNumber : after 0xFA33 { withRegs 10 156 0 0 with I := 0x300 }
    (fun t => (t.byteAt 0x300, t.byteAt 0x301, t.byteAt 0x302, t.I)) = some (1, 5, 6, 0x300) := by decide
/-- TM18. -/
theorem test_splitNumber_fault : after 0xF033 { State.reset with I := 0x0FFE } State.fault =
    some (some (.memoryOutOfRange 0x0FFE 3)) := by decide
/-- TM19 with its quirk. -/
theorem test_registerDump :
    after 0xF255 { (withRegs 0 1 1 2).setReg 2 3 with I := 0x300, q := { Quirks.allClear with memSetsPointer := true } }
      (fun t => (t.byteAt 0x300, t.byteAt 0x301, t.byteAt 0x302, t.I)) = some (1, 2, 3, 0x303) := by decide
/-- TM20. -/
theorem test_registerLoad : after 0xF265 { withBytes 0x300 [1, 5, 6] (withRegs 3 9 0 0) with I := 0x300 }
    (fun t => (t.reg 0, t.reg 1, t.reg 2, t.reg 3)) = some (1, 5, 6, 9) := by decide
/-- S14. -/
theorem test_undefinedZero : after 0x0123 State.reset (fun t => (t.report, t.pc, t.running)) =
    some (.err (.invalidOpcode 0x0123), 0x202, true) := by decide
/-- R251 on the decoder vector `0xE19F`. -/
theorem test_undefinedKey : after 0xE19F State.reset State.report = some (.err (.invalidOpcode 0xE19F)) := by decide
/-- R251 on the decoder vector `0xFFFF`. -/
theorem test_undefinedMisc : after 0xFFFF State.reset State.report = some (.err (.invalidOpcode 0xFFFF)) := by decide

/-! ### Host calls -/

/-- KP6, KP7. -/
theorem test_press_completes : fieldOf (fun t => (t.reg 3, t.wait, t.report))
    (step (withEvent (.press 9) { State.reset with wait := some 3 })) = some (9, none, .changed true) ∧
    fieldOf (fun t => (t.reg 3, t.wait, t.report))
    (step (withEvent (.press 9) { State.reset with wait := some 3, key := State.reset.key.set 9 true })) =
      some (9, none, .changed false) := by decide

/-- RS4, with a program of two bytes at the end of the store and one byte too many. -/
theorem test_load : fieldOf State.report (step (withEvent (.load [1, 2])
      { State.reset with cfg := { Config.default with loadOffset := 0xFFE } })) = some .nothing ∧
    fieldOf (fun t => (t.report, t.mem)) (step (withEvent (.load [1, 2, 3])
      { State.reset with cfg := { Config.default with loadOffset := 0xFFE } })) = some (.rejected, []) := by decide

/-! ### Witnesses: for each statement with hypotheses, states and operands that meet them, clause by clause at the
edges of their ranges -/

/-- A step call at time 5 with a vertical blank. -/
def callAt5 : StepInput := ⟨5, true, 0xAB⟩

/-- A step call at time 5 without one. -/
def blindCallAt5 : StepInput := ⟨5, false, 0xAB⟩

theorem calls_withEvent (inp : StepInput) (s : State) :
    (withEvent (.call inp) s).calls inp { withEvent (.call inp) s with script := [], inp := inp } := .inl ⟨[], rfl, rfl⟩

theorem witness_OpcodePatternsDecode :
    ((0x0DF#12).toNat ≠ 0x0E0 ∧ (0x0DF#12).toNat ≠ 0x0EE) ∧ ((0x0EF#12).toNat ≠ 0x0E0 ∧ (0x0EF#12).toNat ≠ 0x0EE) ∧
    (8 ≤ (8 : Fin 16).val ∧ (8 : Fin 16).val ≠ 0xE) ∧ (8 ≤ (15 : Fin 16).val ∧ (15 : Fin 16).val ≠ 0xE) ∧
    (0x9F#8).toNat ∉ [0x9E, 0xA1] ∧ (0xFF#8).toNat ∉ [0x07, 0x0A, 0x15, 0x18, 0x1E, 0x29, 0x33, 0x55, 0x65] := by decide

theorem witness_DecodeAndEncodeAgree : Instr.wf (.draw 15 15 15) = true ∧ Instr.wf (.undefinedMisc 0xFF66) = true ∧
    (0x5FFF#16).toNat / 4096 = 5 ∧ (0x9FFF#16).toNat / 4096 = 9 := by decide

/-- The last word of the store, an executed instruction and a Draw with a vertical blank under the quirk. -/
theorem witness_StepRunsDecodedInstruction :
    let s := withEvent (.call callAt5) (withBytes 0xFFE [0xD0, 0x11]
      { State.reset with pc := 0xFFE, tlast := 5, q := { Quirks.allClear with displayWait := true } })
    (∃ s0, s.calls callAt5 s0) ∧ s.mode = .running ∧ s.tlast ≤ callAt5.now ∧ s.pc.toNat % 2 = 0 ∧ s.pc.toNat + 2 ≤ 4096 ∧
      s.byteAt s.pc.toNat = 0xD0 ∧ s.byteAt (s.pc.toNat + 1) = 0x11 ∧
      decode (BitVec.ofNat 16 ((0xD0#8).toNat * 256 + (0x11#8).toNat)) = .draw 0 1 1 ∧ callAt5.vblank = true :=
  ⟨⟨_, calls_withEvent _ _⟩, by decide⟩

theorem witness_StoppedMachineTakesNoStep :
    (∃ s s0 : State, s.calls callAt5 s0 ∧ s.fault = some (.keyOutOfRange 16)) ∧
    (∃ s s0 : State, s.calls callAt5 s0 ∧ s.fault = none ∧ s.running = false) :=
  ⟨⟨_, _, calls_withEvent _ { State.reset with fault := some (.keyOutOfRange 16) }, rfl⟩,
   ⟨_, _, calls_withEvent _ { State.reset with running := false }, rfl, rfl⟩⟩

theorem witness_KeyWaitStepAdvancesTimersOnly :
    ∃ s s0 : State, s.calls callAt5 s0 ∧ s.mode = .keyWaiting ∧ s.tlast ≤ callAt5.now :=
  ⟨_, _, calls_withEvent _ { State.reset with wait := some 3, tlast := 5 }, by decide⟩

theorem witness_KeyWaitEndsOnlyByPressOrReset :
    let s : State := { State.reset with wait := some 3 }
    (∃ t, step (withEvent (.press 15) s) = .next t ∧ decide (t.wait ≠ some 3) = true) ∧
    (∃ t, step (withEvent (.reset 9) s) = .next t ∧ decide (t.wait ≠ some 3) = true) :=
  ⟨exists_of_nextWith (by decide), exists_of_nextWith (by decide)⟩

/-- The lowest odd `pc`, the lowest one past the last word, and the last word. -/
theorem witness_FetchIsBigEndianAndChecked :
    (1#16).toNat % 2 = 1 ∧ ((0x1000#16).toNat % 2 = 0 ∧ 4096 < (0x1000#16).toNat + 2) ∧
    ((0xFFE#16).toNat % 2 = 0 ∧ (0xFFE#16).toNat + 2 ≤ 4096) ∧
    ∃ s s0 : State, s.calls callAt5 s0 ∧ s.mode = .running ∧ s.tlast ≤ callAt5.now ∧
      s.fetch = .error (.fetchOutOfRange 0x1000) :=
  ⟨by decide, by decide, by decide, _, _, calls_withEvent _ { State.reset with pc := 0x1000 }, by decide, by decide, rfl⟩

theorem witness_DisplayWaitHoldsExactlyDraw :
    let s := withBytes 0x200 [0xD0, 0x11] { State.reset with q := { Quirks.allClear with displayWait := true } }
    (∃ s0, (withEvent (.call blindCallAt5) s).calls blindCallAt5 s0) ∧ s.mode = .running ∧ s.tlast ≤ blindCallAt5.now ∧
      s.fetch = .ok 0xD011 ∧ decode 0xD011 = .draw 0 1 1 ∧ s.q.displayWait = true ∧ blindCallAt5.vblank = false :=
  ⟨⟨_, calls_withEvent _ _⟩, by decide, by decide, rfl, by decide⟩

theorem witness_TimersAdvanceByWholeTicks :
    ({ State.reset with tlast := 5 } : State).tlast ≤ 5 ∧
    ∃ s s0 : State, s.calls callAt5 s0 ∧ s.fault = none ∧ s.running = true ∧ callAt5.now < s.tlast :=
  ⟨by decide, _, _, calls_withEvent _ { State.reset with tlast := 6 }, by decide⟩

theorem witness_TimerAdvanceHasNoDrift :
    (State.reset.tlast ≤ 0 ∧ 0 ≤ 16666667) ∧
    State.reset.cfg.tickRate = 60 ∧ ({ State.reset with tacc := 999999999 } : State).tacc < 1000000000 := by decide

/-- A state with a byte stored, a call made, pixels lit and a key awaited, before an accepted press. -/
def inhabited : State := withEvent (.press 15)
  { State.reset with mem := [(0x200, 0x22)], wait := some 3, stack := [0x202], FB := [0, 2047], pc := 0x10FE }

theorem inhabited_inv : inhabited.Inv where
  cfg_wf := by decide
  stack_bound := by decide
  stack_entries := fun v h => by rw [List.mem_singleton.1 h]; exact ⟨by decide, by decide⟩
  tacc_bound := by decide
  wait_running := by decide
  pc_bound := by decide
  mem_wf := by decide
  fb_wf := by decide

theorem witness_StepKeepsInv : ∃ s t : State, s.Inv ∧ step s = .next t := by
  obtain ⟨t, h, -⟩ := exists_of_nextWith (p := fun _ => true) (r := step inhabited) (by decide)
  exact ⟨_, t, inhabited_inv, h⟩

/-- The parameters at their edges: the font at the end of the store, a load offset at its last word. -/
theorem witness_ConstructionMeetsInv :
    Config.wf { Config.default with width := 8, height := 1, fontBase := 4016, loadOffset := 4094, tickRate := 1 } = true := by
  decide

theorem witness_ReachableStatesMeetR42 : Reachable State.reset ∧ ∃ t, Reachable t ∧ t.wait = some 3 ∧ t.pc = 0x202 := by
  have h0 : Reachable State.reset := .construct _ _ _ (by decide)
  have h1 : Reachable { State.reset with script := [.load [0xF3, 0x0A], .call callAt5] } := .schedule _ _ h0
  obtain ⟨t, ht, -⟩ := exists_of_nextWith (p := fun _ => true)
    (r := step { State.reset with script := [.load [0xF3, 0x0A], .call callAt5] }) (by decide)
  have h2 := Reachable.step _ _ h1 ht
  have ht' : t = { State.reset with script := [.call callAt5], mem := [(0x200, 0xF3), (0x201, 0x0A)] } := by
    have : step { State.reset with script := [.load [0xF3, 0x0A], .call callAt5] } =
        .next { State.reset with script := [.call callAt5], mem := [(0x200, 0xF3), (0x201, 0x0A)] } := rfl
    rw [this] at ht; cases ht; rfl
  obtain ⟨u, hu, hp⟩ := exists_of_nextWith (p := fun u => decide (u.wait = some 3 ∧ u.pc = 0x202)) (r := step t)
    (by rw [ht']; decide)
  exact ⟨h0, u, .step _ _ h2 hu, of_decide_eq_true hp⟩

theorem witness_StoppedStaysStoppedUntilReset :
    (∃ t, step (withEvent (.press 1) { State.reset with fault := some (.keyOutOfRange 16), running := false }) = .next t ∧
      decide (t.running = false) = true) ∧
    (∃ t, step (State.reset.withFetchWord 16 0x00EE) = .next t ∧
      decide (State.reset.running = true ∧ t.running = false) = true) :=
  ⟨exists_of_nextWith (by decide), exists_of_nextWith (by decide)⟩

theorem witness_HostAloneWritesQuirksAndKeys :
    (∃ t, step (withEvent (.setQuirks { Quirks.allClear with displayWait := true }) State.reset) = .next t ∧
      decide (t.q ≠ State.reset.q) = true) ∧
    (∃ t, step (withEvent (.press 15) State.reset) = .next t ∧ decide (t.key ≠ State.reset.key) = true) :=
  ⟨exists_of_nextWith (by decide), exists_of_nextWith (by decide)⟩

theorem witness_OnlyListedRegistersAreWritten :
    (∃ t, exec (.registerLoad 3) State.reset = .next t ∧ true = true) ∧ ¬mayWriteReg Quirks.allClear (.registerLoad 3) 4 ∧
    ¬mayWriteReg Quirks.allClear (.mathOr 1 2) VF ∧ ({ State.reset with wait := some 3 } : State).wait ≠ some 4 :=
  ⟨exists_of_nextWith (by decide), by unfold mayWriteReg; decide, by unfold mayWriteReg; decide, by decide⟩

theorem witness_InstructionsWriteOnlyTheirState :
    let s : State := { withRegs 1 7 2 8 with I := 0x300, FB := [3], stack := [0x204] }
    nextWith (fun t => decide (t.I ≠ s.I)) (exec (.addPointer 1) s) = true ∧
    nextWith (fun t => decide (t.I ≠ s.I)) (exec (.registerLoad 0) { s with q := { Quirks.allClear with memSetsPointer := true } }) = true ∧
    nextWith (fun t => decide (t.stack ≠ s.stack)) (exec .ret s) = true ∧
    nextWith (fun t => decide (t.mem ≠ s.mem)) (exec (.registerDump 1) s) = true ∧
    nextWith (fun t => decide (t.FB ≠ s.FB)) (exec .clearScreen s) = true ∧
    nextWith (fun t => decide (t.DT ≠ s.DT)) (exec (.setDelay 1) s) = true ∧
    nextWith (fun t => decide (t.ST ≠ s.ST)) (exec (.setSound 1) s) = true ∧
    nextWith (fun t => decide (t.wait ≠ s.wait)) (exec (.waitKeyPress 1) s) = true ∧
    nextWith (fun t => decide (t.running ≠ s.running)) (exec .ret { s with stack := [] }) = true ∧
    nextWith (fun t => decide (t.fault ≠ s.fault)) (exec (.registerLoad 0) { s with I := 0x1000 }) = true := by decide

theorem witness_NoInstructionReadsSoundTimer : (∃ x, Instr.setSound 15 = .setSound x) ∧ ∀ x, Instr.getDelay 15 ≠ .setSound x :=
  ⟨⟨15, rfl⟩, fun _ h => Instr.noConfusion h⟩

theorem witness_StepInputsReachOnlyRandom :
    (∃ x nn, Instr.random 3 0xFF = .random x nn) ∧ callAt5.rand = ({ State.reset with inp := blindCallAt5 } : State).inp.rand :=
  ⟨⟨3, 0xFF, rfl⟩, rfl⟩

/-- Targets at the edges: an odd one, and the ones above the last word. -/
theorem witness_GotoSetsPc : ((0x201#12).toNat % 2 = 1 ∨ 0xFFE < (0x201#12).toNat) ∧ 0xFFE < (0xFFF#12).toNat := by decide

/-- A sum above the last word, and an odd one. -/
theorem witness_RelativeJumpAddsRegister :
    nextWith (fun t => decide (t.pc.toNat = 0x1000 ∧ 0xFFE < t.pc.toNat)) (exec (.relativeJump 0xFFE) (withRegs 0 2 1 0)) = true ∧
    nextWith (fun t => decide (t.pc.toNat % 2 = 1)) (exec (.relativeJump 0x300) (withRegs 0 1 1 0)) = true := by decide

/-- A stack one short of full, and a full one. -/
theorem witness_CallPushesAdvancedPc :
    (List.replicate 7 (0x204 : Word)).length ≠ State.reset.cfg.stackDepth ∧
    (List.replicate 8 (0x204 : Word)).length = State.reset.cfg.stackDepth := by decide

theorem witness_ReturnPopsOrHalts :
    ({ State.reset with stack := [0x204] } : State).stack = [] ++ [(0x204 : Word)] ∧ State.reset.stack = [] := ⟨rfl, rfl⟩

theorem witness_ReturnUndoesCall :
    ∃ s t u : State, s.stack.length < s.cfg.stackDepth ∧ exec (.call 0x300) s = .next t ∧ u.stack = t.stack := by
  obtain ⟨t, h, -⟩ := exists_of_nextWith (p := fun _ => true)
    (r := exec (.call 0x300) { State.reset with stack := List.replicate 7 0x204 }) (by decide)
  exact ⟨_, t, t.setReg 1 7, by decide, h, rfl⟩

/-- The sum at 255 and at 256. -/
theorem witness_AddSetsCarry :
    ∃ s : State, 255 = s.V[(1 : RegIdx)].toNat ∧ 1 = s.V[(2 : RegIdx)].toNat ∧ 0 = (255 + 1) % 256 ∧
      1 = (if 256 ≤ 255 + 1 then 1 else 0) :=
  ⟨withRegs 1 255 2 1, by decide⟩

/-- The corner in which the formula and its gloss differ: `b = 0`. -/
theorem witness_SubtractSetsFlagByFormula :
    ∃ s : State, 7 = s.V[(1 : RegIdx)].toNat ∧ 0 = s.V[(2 : RegIdx)].toNat ∧ 7 = (7 + 256 - 0) % 256 ∧
      0 = (if 7 < 7 then 1 else 0) :=
  ⟨withRegs 1 7 2 0, by decide⟩

/-- One state for each reading, with operands on which the three differ (MA23). -/
theorem witness_DifferenceUnderEachReading (d : DifferenceFlag) :
    ∃ (s : State) (f : Nat), 1 = s.V[(1 : RegIdx)].toNat ∧ 2 = s.V[(2 : RegIdx)].toNat ∧ 1 = (2 + 256 - 1) % 256 ∧
      s.cfg.differenceFlag = d ∧
      (s.cfg.differenceFlag = .destLess → f = (if 1 < 1 then 1 else 0)) ∧
      (s.cfg.differenceFlag = .destLessEq → f = (if 1 ≤ 1 then 1 else 0)) ∧
      (s.cfg.differenceFlag = .minuendGreater → f = (if 1 ≤ 1 ∧ 1 ≤ 2 then 1 else 0)) := by
  cases d
  · exact ⟨withRegs 1 1 2 2, 0, by decide⟩
  · exact ⟨{ withRegs 1 1 2 2 with cfg := { Config.default with differenceFlag := .destLessEq } }, 1, by decide⟩
  · exact ⟨{ withRegs 1 1 2 2 with cfg := { Config.default with differenceFlag := .minuendGreater } }, 1, by decide⟩

theorem witness_ShiftsMoveOneBit :
    ∃ s t : State, 0x81 = (if s.q.altShiftSource then s.V[(2 : RegIdx)].toNat else s.V[(1 : RegIdx)].toNat) ∧
      s.q.altShiftSource = true ∧
      0x81 = (if t.q.altShiftSource then t.V[(2 : RegIdx)].toNat else t.V[(1 : RegIdx)].toNat) ∧ t.q.altShiftSource = false :=
  ⟨{ withRegs 1 0 2 0x81 with q := { Quirks.allClear with altShiftSource := true } }, withRegs 1 0x81 2 0, by decide⟩

theorem witness_UndefinedWordsReturnErrors : decode 0x8FFF = .mathUnknown 0xF 0xF 0xF ∧ decode 0x8008 = .mathUnknown 0 0 8 ∧
    decode 0x00EF = .undefinedZero 0x00EF ∧ decode 0xEF9F = .undefinedKey 0xEF9F ∧ decode 0xFF66 = .undefinedMisc 0xFF66 := by
  decide

theorem witness_ClearScreenClearsEveryPixel : 63 < State.reset.cfg.width ∧ 31 < State.reset.cfg.height := by decide

/-- A sprite that ends at the last byte of the store, over a lit last pixel; and height 0 with any pointer. -/
theorem witness_DrawFlipsCoveredPixels :
    let s : State := { withRegs 0 63 1 31 with I := 0xFFE, FB := [0, 2047] }
    s.cfg.wf = true ∧ Framebuffer.wf s.cfg s.FB ∧ s.I.toNat + (2 : Fin 16).val = 4096 ∧
      (63 < s.cfg.width ∧ 31 < s.cfg.height ∧ s.pixel 63 31 = true ∧ s.pixel 62 31 = false) ∧
      ((0 : Fin 16).val = 0 ∧ Framebuffer.wf { s with I := 0xFFFF }.cfg s.FB) := by decide

theorem witness_DrawOutOfRangeFaults :
    (1 : Fin 16).val ≠ 0 ∧ 4096 < ({ State.reset with I := 0x1000 } : State).I.toNat + (1 : Fin 16).val := by decide

theorem witness_DrawTwiceRestoresFramebuffer :
    ∃ s t u : State, s.cfg.wf = true ∧ Framebuffer.wf s.cfg s.FB ∧ (0 : RegIdx) ≠ VF ∧ (1 : RegIdx) ≠ VF ∧
      t.fault = none ∧ u.fault = none ∧ exec (.draw 0 1 1) s = .next t ∧ exec (.draw 0 1 1) t = .next u ∧ t.FB ≠ s.FB := by
  obtain ⟨t, ht, hp⟩ := exists_of_nextWith
    (p := fun t => nextWith (fun u => decide (u.fault = none ∧ t.fault = none ∧ t.FB ≠ [63])) (exec (.draw 0 1 1) t))
    (r := exec (.draw 0 1 1) { withRegs 0 63 1 0 with FB := [63] }) (by decide)
  obtain ⟨u, hu, hq⟩ := exists_of_nextWith hp
  have hq := of_decide_eq_true hq
  exact ⟨_, t, u, by decide, by decide, by decide, by decide, hq.2.1, hq.1, ht, hu, hq.2.2⟩

/-- The last key, and the lowest code that is none. -/
theorem witness_KeySkipsPollTheKey :
    (withRegs 2 15 0 0).V[(2 : RegIdx)].toNat = (15 : Fin 16).val ∧ 15 < (withRegs 2 16 0 0).V[(2 : RegIdx)].toNat := by decide

theorem witness_WaitKeyPressSetsOnlyTheMarker : State.reset.mode = .running := by decide

theorem witness_PressSetsKeyAndCompletesWait :
    (withEvent (.press 16) State.reset).script = .press 16 :: [] ∧ 15 < 16 ∧
    (withEvent (.press 15) State.reset).script = .press 15 :: [] ∧ 15 = (15 : Fin 16).val := by decide

theorem witness_ReleaseNeverCompletesWait :
    (withEvent (.release 16) State.reset).script = .release 16 :: [] ∧ 15 < 16 ∧
    (withEvent (.release 15) State.reset).script = .release 15 :: [] ∧ 15 = (15 : Fin 16).val := by decide

theorem witness_FontGlyphPointsAtDigit :
    State.reset.cfg.wf = true ∧ (withRegs 4 15 0 0).V[(4 : RegIdx)].toNat ≤ 15 ∧ 15 < (withRegs 4 16 0 0).V[(4 : RegIdx)].toNat := by
  decide

/-- The last place three bytes fit, the first they do not, and addresses next to the stored ones. -/
theorem witness_SplitNumberStoresDigits :
    Memory.wf State.reset.cfg State.reset.mem ∧ ({ State.reset with I := 0xFFD } : State).I.toNat + 3 ≤ 4096 ∧
    4096 < ({ State.reset with I := 0xFFE } : State).I.toNat + 3 ∧ (0xFFC < 0xFFD ∨ 0xFFD + 3 ≤ 0xFFC) ∧
    (0x1000 < 0xFFD ∨ 0xFFD + 3 ≤ 0x1000) := by decide

theorem witness_RegisterDumpStoresRegisters :
    Memory.wf State.reset.cfg State.reset.mem ∧
    ({ State.reset with I := 0xFF0 } : State).I.toNat + ((15 : RegIdx).val + 1) ≤ 4096 ∧
    4096 < ({ State.reset with I := 0xFF1 } : State).I.toNat + ((15 : RegIdx).val + 1) ∧
    (15 : RegIdx).val ≤ (15 : RegIdx).val ∧ (0xFEF < 0xFF0 ∨ 0xFF0 + ((15 : RegIdx).val + 1) ≤ 0xFEF) := by decide

theorem witness_RegisterLoadReadsBytes :
    ({ State.reset with I := 0xFF0 } : State).I.toNat + ((15 : RegIdx).val + 1) ≤ 4096 ∧
    4096 < ({ State.reset with I := 0x1000 } : State).I.toNat + ((0 : RegIdx).val + 1) := by decide

theorem witness_LoadUndoesDump :
    ∃ s t : State, Memory.wf s.cfg s.mem ∧ s.I.toNat + ((15 : RegIdx).val + 1) ≤ 4096 ∧
      exec (.registerDump 15) s = .next t := by
  obtain ⟨t, h, -⟩ := exists_of_nextWith (p := fun _ => true)
    (r := exec (.registerDump 15) { withRegs 0 1 15 9 with I := 0xFF0 }) (by decide)
  exact ⟨_, t, by decide, by decide, h⟩

/-- The last word of the store, with stores that end at its high byte, cover only its low byte, and cover it whole. -/
theorem witness_StoreIsSeenByNextFetch :
    let s : State := { State.reset with pc := 0xFFE }
    Memory.wf s.cfg s.mem ∧ s.pc.toNat % 2 = 0 ∧ s.pc.toNat + 2 ≤ 4096 ∧
      ({ s with I := 0xFFC } : State).I.toNat + 3 = s.pc.toNat + 1 ∧ ({ s with I := 0xFFC } : State).I.toNat + 3 ≤ 4096 ∧
      ({ s with I := 0xFFF } : State).I.toNat = s.pc.toNat + 1 ∧
      ({ s with I := 0xFFF } : State).I.toNat + ((0 : RegIdx).val + 1) ≤ 4096 ∧
      ({ s with I := 0xFFE } : State).I.toNat + ((1 : RegIdx).val + 1) ≤ 4096 := by decide

/-- A program that just fits, one byte too many, and addresses next to the loaded ones. -/
theorem witness_LoadWritesProgramOrIsRefused :
    let s : State := { State.reset with cfg := { Config.default with loadOffset := 0xFFE } }
    (withEvent (.load [1, 2]) s).script = .load [1, 2] :: [] ∧ Memory.wf s.cfg s.mem ∧
      s.cfg.loadOffset + [(1 : Byte), 2].length ≤ 4096 ∧ 4096 < s.cfg.loadOffset + [(1 : Byte), 2, 3].length ∧
      [(1 : Byte), 2][1]? = some 2 ∧ (0xFFD < s.cfg.loadOffset ∨ s.cfg.loadOffset + [(1 : Byte), 2].length ≤ 0xFFD) := by decide

theorem witness_ResetSetsEveryField :
    Config.wf { Config.default with fontBase := 4016, loadOffset := 4094 } = true ∧
    ∃ s : State, s.script = .reset 5 :: [] ∧ s.cfg.wf = true ∧ s.running = false ∧ s.fault = some (.keyOutOfRange 16) ∧ s.DT = 7 :=
  ⟨by decide, withEvent (.reset 5) { State.reset with running := false, fault := some (.keyOutOfRange 16), DT := 7 }, by decide⟩

theorem witness_QuirkWriteReplacesQuirks :
    (withEvent (.setQuirks { Quirks.allClear with partialWrap := true }) State.reset).script =
      .setQuirks { Quirks.allClear with partialWrap := true } :: [] := rfl

/-- The font ending where the program begins, and the font beginning right after its first word. -/
theorem witness_FirstStepWithoutProgram :
    (Config.wf { Config.default with fontBase := 0x1B0 } = true ∧ 0x1B0 + 80 ≤ 0x200) ∧
    (Config.wf { Config.default with fontBase := 0x202 } = true ∧ 0x200 + 2 ≤ 0x202) ∧ 5 ≤ callAt5.now := by decide

end Sys2Proof.Tests
end

/-! # Proofs of the family 10_state.md: call stack, and what the host alone writes -/

section
/-! ## Call and Return (spec/10_state.md R29, R30; spec/41_control_flow.md R121, R122) -/

namespace Sys2Proof.Machine

open Sys2Proof.Claims

/-- The claims' arithmetic word of format `A` is the encoder's (R72). -/
theorem wordA_eq_encodeA (c : BitVec 4) (nnn : BitVec 12) : wordA c.toNat nnn = encodeA c nnn :=
  BitVec.eq_of_toNat_eq (by rw [encodeA_toNat, wordA, BitVec.toNat_ofNat]; omega)

theorem decode_wordA_call (nnn : BitVec 12) : decode (wordA 2 nnn) = .call nnn := by
  rw [show wordA 2 nnn = encodeA 2 nnn from wordA_eq_encodeA 2 nnn]
  simp [decode]

theorem exec_call_of_room {s : State} (nnn : BitVec 12) (h : s.stack.length ≠ s.cfg.stackDepth) :
    exec (.call nnn) s = .next { s with stack := s.stack ++ [s.pc], pc := addressOf nnn, report := .ok } := by
  simp only [exec, execCall, State.push_ok h]; rfl

theorem exec_call_of_full {s : State} (nnn : BitVec 12) (h : s.stack.length = s.cfg.stackDepth) :
    exec (.call nnn) s = raiseFault (.stackOverflow s.pc) s := by
  simp only [exec, execCall, State.push_error h]

theorem exec_ret_of_snoc {s : State} {below : List Word} {v : Word} (h : s.stack = below ++ [v]) :
    exec .ret s = .next { s with stack := below, pc := v, report := .ok } := by
  simp only [exec, execReturn, State.pop_snoc h]; rfl

theorem exec_ret_of_empty {s : State} (h : s.stack = []) :
    exec .ret s = raiseError .invalidState { s with running := false } := by
  simp only [exec, execReturn, State.pop_empty h]

/-- Settles O24: the push succeeds unless the stack is full, and `nnn` is zero-extended into `pc`. -/
theorem callPushesAdvancedPc : Obligations.CallPushesAdvancedPc := fun nnn _ =>
  ⟨decode_wordA_call nnn,
    fun hroom => ⟨addressOf nnn, exec_call_of_room nnn hroom, addressOf_toNat nnn⟩,
    fun hfull => exec_call_of_full nnn hfull⟩

/-- Settles O25: the two cases of the pop, a last entry and none. -/
theorem returnPopsOrHalts : Obligations.ReturnPopsOrHalts := fun _ =>
  ⟨rfl, fun _ _ hsnoc => exec_ret_of_snoc hsnoc, fun hempty => exec_ret_of_empty hempty⟩

end Sys2Proof.Machine
end

section
/-! ## The fields no instruction writes (spec/10_state.md R32, R36, R39, with the parameters and the host's side) -/

namespace Sys2Proof.Machine

/-- `t` has every field of `s` that no instruction writes: the parameters, the quirks, the key states, the timers' time
base, and the host's side. -/
structure State.Frame (s t : State) : Prop where
  cfg : t.cfg = s.cfg
  q : t.q = s.q
  key : t.key = s.key
  tacc : t.tacc = s.tacc
  tlast : t.tlast = s.tlast
  inp : t.inp = s.inp
  script : t.script = s.script
  drawn : t.drawn = s.drawn

/-- Every next state the answer `r` gives keeps the frame of `s`. -/
def FramedBy (s : State) (r : Result) : Prop := ∀ t, r = .next t → s.Frame t

/-! ### The three ways an instruction ends -/

theorem framedBy_finish {s u : State} (h : s.Frame u) : FramedBy s (finish u) := by
  rintro _ ⟨⟩
  exact { h with }

theorem framedBy_raiseError {s u : State} (e : StepError) (h : s.Frame u) : FramedBy s (raiseError e u) := by
  rintro _ ⟨⟩
  exact { h with }

theorem framedBy_raiseFault (f : FaultReason) (s : State) : FramedBy s (raiseFault f s) := by
  rintro _ ⟨⟩
  constructor <;> rfl

/-! ### The operations an instruction ends with -/

theorem State.Frame.setPc {s u : State} (a : Word) (h : s.Frame u) : s.Frame (u.setPc a) :=
  { h with }

theorem State.Frame.stepPointer {s u : State} (x : RegIdx) (h : s.Frame u) : s.Frame (u.stepPointer x) := by
  unfold State.stepPointer
  split
  · exact { h with }
  · exact h

theorem State.frame_skipWhen (c : Bool) (s : State) : s.Frame (s.skipWhen c) := by constructor <;> simp

theorem State.frame_of_push {v : Word} {s u : State} (h : s.push v = .ok u) : s.Frame u := by
  unfold State.push at h
  split at h <;> cases h
  constructor <;> rfl

theorem State.frame_of_pop {v : Word} {s u : State} (h : s.pop = some (v, u)) : s.Frame u := by
  unfold State.pop at h
  split at h <;> cases h
  constructor <;> rfl

theorem State.frame_of_memWrite {a : Word} {bs : List Byte} {s u : State} (h : s.memWrite a bs = .ok u) :
    s.Frame u := by
  unfold State.memWrite at h
  split at h <;> cases h
  constructor <;> rfl

/-- No instruction writes a field of the frame. The first group of arms completes with a named update of `s`, the second
reports an error, and each of the others first asks the stack, the store or a range check. -/
theorem exec_framed (i : Instr) (s : State) : FramedBy s (exec i s) := by
  cases i with
  | clearScreen | goto | skipIfEqualConst | skipIfNotEqualConst | skipIfEqualReg | skipIfNotEqualReg | setConst | addConst
  | mathAssign | mathOr | mathAnd | mathXor | mathAdd | mathSubtract | mathShiftRight | mathDifference | mathShiftLeft
  | setPointer | relativeJump | random | getDelay | waitKeyPress | setDelay | setSound | addPointer =>
    exact framedBy_finish (by constructor <;> simp)
  | mathUnknown | undefinedZero | undefinedKey | undefinedMisc =>
    exact framedBy_raiseError _ (by constructor <;> rfl)
  | ret =>
    rw [exec, execReturn]
    split
    next => exact framedBy_raiseError _ (by constructor <;> rfl)
    next v u h => exact framedBy_finish ((State.frame_of_pop h).setPc v)
  | call nnn =>
    rw [exec, execCall]
    split
    next f _ => exact framedBy_raiseFault f s
    next u h => exact framedBy_finish ((State.frame_of_push h).setPc _)
  | draw x y n =>
    rw [exec, execDraw]
    split
    next f _ => exact framedBy_raiseFault f s
    next rows _ => exact framedBy_finish (by constructor <;> rfl)
  | keyPressed | keyNotPressed =>
    simp only [exec, execKeyPressed, execKeyNotPressed]
    split
    next => exact framedBy_raiseFault _ s
    next => exact framedBy_finish (State.frame_skipWhen _ s)
  | fontGlyph x =>
    rw [exec, execFontGlyph]
    split
    next => exact framedBy_raiseFault _ s
    next => exact framedBy_finish (by constructor <;> rfl)
  | splitNumber x =>
    rw [exec, execSplitNumber]
    split
    next f _ => exact framedBy_raiseFault f s
    next u h => exact framedBy_finish (State.frame_of_memWrite h)
  | registerDump x =>
    rw [exec, execRegisterDump]
    split
    next f _ => exact framedBy_raiseFault f s
    next u h => exact framedBy_finish ((State.frame_of_memWrite h).stepPointer x)
  | registerLoad x =>
    rw [exec, execRegisterLoad]
    split
    next f _ => exact framedBy_raiseFault f s
    next bs _ => exact framedBy_finish (State.Frame.stepPointer x (by constructor <;> rfl))

end Sys2Proof.Machine
end

section
/-! ## What each event leaves of the parameters, the quirks and the key states (spec/10_state.md R36, R39) -/

namespace Sys2Proof.Machine

/-- A step call writes none of the parameters, the quirks and the key states. -/
theorem callStep_keeps_cfg_q_key {s t : State} (h : callStep s = .next t) : t.cfg = s.cfg ∧ t.q = s.q ∧ t.key = s.key := by
  rcases callStep_cases s with ⟨f, -, hc⟩ | ⟨-, -, hc⟩ | ⟨-, -, -, hc⟩ | ⟨-, -, -, b, rfl, hlive⟩
  · cases hc.symm.trans h
  · cases hc.symm.trans h; exact ⟨rfl, rfl, rfl⟩
  · cases hc.symm.trans h
  · rcases hlive with ⟨r, -, hc⟩ | ⟨-, f, -, hc⟩ | ⟨-, op, -, -, hc⟩ | ⟨-, op, -, -, hc⟩
    · cases hc.symm.trans h; exact ⟨rfl, rfl, rfl⟩
    · cases hc.symm.trans h; exact ⟨rfl, rfl, rfl⟩
    · cases hc.symm.trans h; exact ⟨rfl, rfl, rfl⟩
    · have hframe := exec_framed _ _ t (hc.symm.trans h)
      exact ⟨hframe.cfg, hframe.q, hframe.key⟩

@[simp] theorem State.completeWait_cfg (k : Fin 16) (s : State) : (s.completeWait k).cfg = s.cfg := by
  unfold State.completeWait; split <;> rfl
@[simp] theorem State.completeWait_q (k : Fin 16) (s : State) : (s.completeWait k).q = s.q := by
  unfold State.completeWait; split <;> rfl

theorem State.press_keeps_cfg_q (k : Nat) (s : State) : (s.press k).cfg = s.cfg ∧ (s.press k).q = s.q := by
  unfold State.press
  split
  next => exact ⟨rfl, rfl⟩
  next => simp

theorem State.release_keeps_cfg_q (k : Nat) (s : State) : (s.release k).cfg = s.cfg ∧ (s.release k).q = s.q := by
  unfold State.release
  split <;> exact ⟨rfl, rfl⟩

theorem State.load_keeps_cfg_q_key (bs : List Byte) (s : State) :
    (s.load bs).cfg = s.cfg ∧ (s.load bs).q = s.q ∧ (s.load bs).key = s.key := by
  unfold State.load
  split <;> exact ⟨rfl, rfl, rfl⟩

/-- Settles O16, event by event: a step call and a load write none of parameters, quirks and key states; of these press,
release and reset write the key states alone, and a quirk write the quirks alone. -/
theorem hostAloneWritesQuirksAndKeys : Obligations.HostAloneWritesQuirksAndKeys := by
  intro s t h
  rcases step_cases s with ⟨inp, s0, hcalls, hs⟩ | ⟨k, rest, hev, hs⟩ | ⟨k, rest, hev, hs⟩ | ⟨q, rest, hev, hs⟩ |
    ⟨bs, rest, hev, hs⟩ | ⟨now, rest, hev, hs⟩
  · have h0 := calls_eq hcalls
    obtain ⟨hcfg, hq, hkey⟩ := callStep_keeps_cfg_q_key (hs.symm.trans h)
    rw [h0] at hcfg hq hkey
    exact ⟨hcfg, fun hne => absurd hq hne, fun hne => absurd hkey hne⟩
  all_goals cases hs.symm.trans h
  · obtain ⟨hcfg, hq⟩ := State.press_keeps_cfg_q k { s with script := rest }
    exact ⟨hcfg, fun hne => absurd hq hne, fun _ => .inl ⟨k, rest, hev⟩⟩
  · obtain ⟨hcfg, hq⟩ := State.release_keeps_cfg_q k { s with script := rest }
    exact ⟨hcfg, fun hne => absurd hq hne, fun _ => .inr (.inl ⟨k, rest, hev⟩)⟩
  · exact ⟨rfl, fun _ => ⟨rest, hev⟩, fun hne => absurd rfl hne⟩
  · obtain ⟨hcfg, hq, hkey⟩ := State.load_keeps_cfg_q_key bs { s with script := rest }
    exact ⟨hcfg, fun hne => absurd hq hne, fun hne => absurd hkey hne⟩
  · exact ⟨rfl, fun hne => absurd rfl hne, fun _ => .inr (.inr ⟨now, rest, hev⟩)⟩

end Sys2Proof.Machine
end

/-! # Proofs of the family 30_encoding.md: the opcode map -/

section
/-! ## Decoding undoes encoding on the well-formed instructions (spec/30_encoding.md R76, R83) -/

namespace Sys2Proof

/-! ### Well-formedness of the four "unknown" tags, in the decoder's own terms (R77, R79, R80) -/

theorem wf_undefinedZero_iff (w : Word) :
    (Instr.undefinedZero w).wf = true ↔ fieldC w = 0 ∧ w ≠ 0x00E0#16 ∧ w ≠ 0x00EE#16 := by
  simp [Instr.wf, definedZeroWords, fieldC]

theorem wf_mathUnknown_iff (x y : RegIdx) (n : BitVec 4) :
    (Instr.mathUnknown x y n).wf = true ↔ 8 ≤ n.toNat ∧ n.toNat ≠ 0xE := by
  simp only [Instr.wf, definedMathCodes]
  revert n
  decide

theorem wf_undefinedKey_iff (w : Word) :
    (Instr.undefinedKey w).wf = true ↔ fieldC w = 0xE ∧ (fieldNN w).toNat ∉ [0x9E, 0xA1] := by
  simp [Instr.wf, definedKeyCodes, fieldC, fieldNN, ← BitVec.toNat_inj]

theorem wf_undefinedMisc_iff (w : Word) :
    (Instr.undefinedMisc w).wf = true ↔
      fieldC w = 0xF ∧ (fieldNN w).toNat ∉ [0x07, 0x0A, 0x15, 0x18, 0x1E, 0x29, 0x33, 0x55, 0x65] := by
  simp [Instr.wf, definedMiscCodes, fieldC, fieldNN, ← BitVec.toNat_inj]

/-! ### The last arm of each open category -/

theorem decodeMath_of_unknown (x y : RegIdx) {n : BitVec 4} (h : 8 ≤ n.toNat ∧ n.toNat ≠ 0xE) :
    decodeMath x y n = .mathUnknown x y n := by
  have hcases := decodeMath_cases x y n
  grind

theorem decodeKey_of_undefined {w : Word} (h : (fieldNN w).toNat ∉ [0x9E, 0xA1]) : decodeKey w = .undefinedKey w := by
  unfold decodeKey
  split <;> simp_all

theorem decodeMisc_of_undefined {w : Word}
    (h : (fieldNN w).toNat ∉ [0x07, 0x0A, 0x15, 0x18, 0x1E, 0x29, 0x33, 0x55, 0x65]) :
    decodeMisc w = .undefinedMisc w := by
  unfold decodeMisc
  split <;> simp_all

/-- R83, by the format of the instruction's word: the category and the fields of an encoded word are the ones encoded, and
an "unknown" tag carries what no defined pattern matches. -/
theorem decode_encode {i : Instr} (hwf : i.wf = true) : decode (encode i) = i := by
  cases i with
  | clearScreen | ret => rfl
  | goto | call | setPointer | relativeJump => simp [encode, decode]
  | skipIfEqualConst | skipIfNotEqualConst | setConst | addConst | random => simp [encode, decode]
  | skipIfEqualReg | skipIfNotEqualReg | draw => simp [encode, decode]
  | mathAssign | mathOr | mathAnd | mathXor | mathAdd | mathSubtract | mathShiftRight | mathDifference | mathShiftLeft =>
    simp [encode, decode, decodeMath]
  | keyPressed | keyNotPressed => simp [encode, decode, decodeKey]
  | getDelay | waitKeyPress | setDelay | setSound | addPointer | fontGlyph | splitNumber | registerDump | registerLoad =>
    simp [encode, decode, decodeMisc]
  | mathUnknown x y sub =>
    simp [encode, decode, decodeMath_of_unknown x y ((wf_mathUnknown_iff x y sub).1 hwf)]
  | undefinedZero raw =>
    obtain ⟨hcat, hclear, hret⟩ := (wf_undefinedZero_iff raw).1 hwf
    simp [encode, decode, hcat, decodeZero, hclear, hret]
  | undefinedKey raw =>
    obtain ⟨hcat, hcode⟩ := (wf_undefinedKey_iff raw).1 hwf
    simp [encode, decode, hcat, decodeKey_of_undefined hcode]
  | undefinedMisc raw =>
    obtain ⟨hcat, hcode⟩ := (wf_undefinedMisc_iff raw).1 hwf
    simp [encode, decode, hcat, decodeMisc_of_undefined hcode]

theorem decode_eq_of_eq_encode {i : Instr} {w : Word} (hwf : i.wf = true) (hw : w = encode i) : decode w = i :=
  hw ▸ decode_encode hwf

end Sys2Proof
end

section
/-! ## The opcode map, pattern by pattern (spec/30_encoding.md R72, R76) -/

namespace Sys2Proof.Machine

open Sys2Proof.Claims

/-! ### The claims' arithmetic words are the encoder's (R72); for format `A` see `wordA_eq_encodeA` -/

theorem wordRB_eq_encodeRB (c : BitVec 4) (x : RegIdx) (nn : Byte) : wordRB c.toNat x nn = encodeRB c x nn :=
  BitVec.eq_of_toNat_eq (by rw [encodeRB_toNat, wordRB, BitVec.toNat_ofNat]; omega)

theorem wordRF_eq_encodeRB (c : BitVec 4) (x : RegIdx) (f : Byte) : wordRF c.toNat x f.toNat = encodeRB c x f :=
  wordRB_eq_encodeRB c x f

theorem wordRRN_eq_encodeRRN (c : BitVec 4) (x y : RegIdx) (n : Fin 16) :
    wordRRN c.toNat x y n.val = encodeRRN c x y (nibbleOfFin n) :=
  BitVec.eq_of_toNat_eq (by rw [encodeRRN_toNat, nibbleOfFin_toNat, wordRRN, BitVec.toNat_ofNat]; omega)

/-! ### A word of each format decodes to the well-formed instruction it is the encoding of -/

theorem decode_wordA (c : BitVec 4) (nnn : BitVec 12) {i : Instr} (hwf : i.wf = true) (h : encodeA c nnn = encode i) :
    decode (wordA c.toNat nnn) = i :=
  decode_eq_of_eq_encode hwf ((wordA_eq_encodeA c nnn).trans h)

theorem decode_wordRB (c : BitVec 4) (x : RegIdx) (nn : Byte) {i : Instr} (hwf : i.wf = true)
    (h : encodeRB c x nn = encode i) : decode (wordRB c.toNat x nn) = i :=
  decode_eq_of_eq_encode hwf ((wordRB_eq_encodeRB c x nn).trans h)

theorem decode_wordRF (c : BitVec 4) (x : RegIdx) (f : Byte) {i : Instr} (hwf : i.wf = true)
    (h : encodeRB c x f = encode i) : decode (wordRF c.toNat x f.toNat) = i :=
  decode_eq_of_eq_encode hwf ((wordRF_eq_encodeRB c x f).trans h)

theorem decode_wordRRN (c : BitVec 4) (x y : RegIdx) (n : Fin 16) {i : Instr} (hwf : i.wf = true)
    (h : encodeRRN c x y (nibbleOfFin n) = encode i) : decode (wordRRN c.toNat x y n.val) = i :=
  decode_eq_of_eq_encode hwf ((wordRRN_eq_encodeRRN c x y n).trans h)

/-! ### The two categories whose low nibble is ignored (R78), so that one instruction has 16 words -/

theorem decode_wordRRN_skipIfEqualReg (x y : RegIdx) (n : Fin 16) :
    decode (wordRRN 5 x y n.val) = .skipIfEqualReg x y := by
  have hword : wordRRN 5 x y n.val = encodeRRN 5 x y (nibbleOfFin n) := wordRRN_eq_encodeRRN 5 x y n
  simp [hword, decode]

theorem decode_wordRRN_skipIfNotEqualReg (x y : RegIdx) (n : Fin 16) :
    decode (wordRRN 9 x y n.val) = .skipIfNotEqualReg x y := by
  have hword : wordRRN 9 x y n.val = encodeRRN 9 x y (nibbleOfFin n) := wordRRN_eq_encodeRRN 9 x y n
  simp [hword, decode]

/-! ### The words of the open categories that no pattern names -/

theorem decode_wordA_undefinedZero {nnn : BitVec 12} (hclear : nnn.toNat ≠ 0x0E0) (hret : nnn.toNat ≠ 0x0EE) :
    decode (wordA 0 nnn) = .undefinedZero (wordA 0 nnn) := by
  have hword : wordA 0 nnn = encodeA 0 nnn := wordA_eq_encodeA 0 nnn
  have hvalue : (encodeA 0 nnn).toNat = nnn.toNat := by simp [encodeA_toNat]
  rw [hword]
  exact decode_eq_of_eq_encode ((wf_undefinedZero_iff _).2 ⟨fieldC_encodeA ..,
    fun h => hclear (hvalue.symm.trans (congrArg BitVec.toNat h)),
    fun h => hret (hvalue.symm.trans (congrArg BitVec.toNat h))⟩) rfl

theorem decode_wordRRN_mathUnknown (x y : RegIdx) {n : Fin 16} (h : 8 ≤ n.val ∧ n.val ≠ 0xE) :
    decode (wordRRN 8 x y n.val) = .mathUnknown x y (nibbleOfFin n) :=
  decode_wordRRN 8 x y n ((wf_mathUnknown_iff x y _).2 (by rwa [nibbleOfFin_toNat])) rfl

theorem decode_wordRF_undefinedKey (x : RegIdx) {f : Byte} (h : f.toNat ∉ [0x9E, 0xA1]) :
    decode (wordRF 0xE x f.toNat) = .undefinedKey (wordRF 0xE x f.toNat) := by
  have hword : wordRF 0xE x f.toNat = encodeRB 0xE x f := wordRF_eq_encodeRB 0xE x f
  rw [hword]
  exact decode_eq_of_eq_encode ((wf_undefinedKey_iff _).2 ⟨fieldC_encodeRB .., by rwa [fieldNN_encodeRB]⟩) rfl

theorem decode_wordRF_undefinedMisc (x : RegIdx) {f : Byte}
    (h : f.toNat ∉ [0x07, 0x0A, 0x15, 0x18, 0x1E, 0x29, 0x33, 0x55, 0x65]) :
    decode (wordRF 0xF x f.toNat) = .undefinedMisc (wordRF 0xF x f.toNat) := by
  have hword : wordRF 0xF x f.toNat = encodeRB 0xF x f := wordRF_eq_encodeRB 0xF x f
  rw [hword]
  exact decode_eq_of_eq_encode ((wf_undefinedMisc_iff _).2 ⟨fieldC_encodeRB .., by rwa [fieldNN_encodeRB]⟩) rfl

/-- Settles O1: the word of a pattern is the encoding of its instruction, which `decode_encode` gives back; the words of
`5XYn` and `9XYn` with `n ≠ 0` are no encoding and go by their category. -/
theorem opcodePatternsDecode : Obligations.OpcodePatternsDecode := by
  refine ⟨fun x y n nn nnn => ?_, fun _ => decode_wordA_undefinedZero, fun x y _ => decode_wordRRN_mathUnknown x y,
    fun x _ => decode_wordRF_undefinedKey x, fun x _ => decode_wordRF_undefinedMisc x⟩
  exact ⟨rfl, rfl,
    decode_wordA 1 nnn rfl rfl, decode_wordA_call nnn,
    decode_wordRB 3 x nn rfl rfl, decode_wordRB 4 x nn rfl rfl,
    decode_wordRRN_skipIfEqualReg x y n,
    decode_wordRB 6 x nn rfl rfl, decode_wordRB 7 x nn rfl rfl,
    decode_wordRRN 8 x y 0 rfl rfl, decode_wordRRN 8 x y 1 rfl rfl,
    decode_wordRRN 8 x y 2 rfl rfl, decode_wordRRN 8 x y 3 rfl rfl,
    decode_wordRRN 8 x y 4 rfl rfl, decode_wordRRN 8 x y 5 rfl rfl,
    decode_wordRRN 8 x y 6 rfl rfl, decode_wordRRN 8 x y 7 rfl rfl,
    decode_wordRRN 8 x y 0xE rfl rfl,
    decode_wordRRN_skipIfNotEqualReg x y n,
    decode_wordA 0xA nnn rfl rfl, decode_wordA 0xB nnn rfl rfl,
    decode_wordRB 0xC x nn rfl rfl, decode_wordRRN 0xD x y n rfl rfl,
    decode_wordRF 0xE x 0x9E rfl rfl, decode_wordRF 0xE x 0xA1 rfl rfl,
    decode_wordRF 0xF x 0x07 rfl rfl, decode_wordRF 0xF x 0x0A rfl rfl,
    decode_wordRF 0xF x 0x15 rfl rfl, decode_wordRF 0xF x 0x18 rfl rfl,
    decode_wordRF 0xF x 0x1E rfl rfl, decode_wordRF 0xF x 0x29 rfl rfl,
    decode_wordRF 0xF x 0x33 rfl rfl, decode_wordRF 0xF x 0x55 rfl rfl,
    decode_wordRF 0xF x 0x65 rfl rfl⟩

end Sys2Proof.Machine
end

/-! # Proofs of the family 40_execution_cycle.md: the fetch and the display-wait hold -/

section
/-! ## A step call in running mode (spec/40_execution_cycle.md R100) -/

namespace Sys2Proof.Machine

open Sys2Proof.Claims

/-! ### Taking the inputs and advancing the timers leave what a fetch and a hold read -/

section
variable {s s0 : State} {inp : StepInput} (h : s.calls inp s0)
include h

theorem begun_pc : (begun s0 inp).pc = s.pc := by
  rw [calls_eq h]; rfl

theorem begun_q : (begun s0 inp).q = s.q := by
  rw [calls_eq h]; rfl

theorem begun_inp : (begun s0 inp).inp = inp := by
  rw [calls_eq h]; rfl

theorem begun_fetch : (begun s0 inp).fetch = s.fetch := by
  rw [calls_eq h]; rfl

/-- In running mode, with a time that does not decrease, phases 1 to 4 of a step call only advance the timers (R100). -/
theorem step_eq_runInstruction_begun (hmode : s.mode = .running) (htime : s.tlast ≤ inp.now) :
    step s = runInstruction (begun s0 inp) := by
  obtain ⟨hfault, hrunning, hwait⟩ := (mode_running_iff s).1 hmode
  have hlive : callStep s0 = runUnlessWaiting (begun s0 inp) := by
    rw [calls_eq h]
    simp [callStep, hfault, hrunning, Nat.not_lt.2 htime, begun]
  have hnone : (begun s0 inp).wait = none := by
    rw [calls_eq h]
    exact hwait
  rw [step_of_calls h, hlive, runUnlessWaiting, hnone]

end

/-! ### Phases 5 to 7 where the fetch fails and where the hold applies -/

theorem runInstruction_of_fetch_error {s : State} {f : FaultReason} (h : s.fetch = .error f) :
    runInstruction s = .next { s with fault := some f, report := .fault f } := by
  rw [runInstruction, h]; rfl

theorem runInstruction_of_holds {s : State} {op : Word} (h : s.fetch = .ok op) (hhold : holds (decode op) s = true) :
    runInstruction s = .next { s with report := .held } := by
  simp only [runInstruction, h, hhold, if_true]

end Sys2Proof.Machine
end

section
/-! ## The two checks of the fetch and its byte order (spec/40_execution_cycle.md R104) -/

namespace Sys2Proof.Machine

theorem State.fetch_of_odd {s : State} (h : s.pc.toNat % 2 = 1) : s.fetch = .error (.misalignedFetch s.pc) :=
  if_pos h

theorem State.fetch_of_beyond {s : State} (heven : s.pc.toNat % 2 = 0) (h : memSize < s.pc.toNat + 2) :
    s.fetch = .error (.fetchOutOfRange s.pc) := by
  rw [State.fetch, if_neg (by omega), if_pos h]

theorem State.fetch_of_inside {s : State} (heven : s.pc.toNat % 2 = 0) (h : s.pc.toNat + 2 ≤ memSize) :
    s.fetch = .ok (wordOfBytes (s.byteAt s.pc.toNat) (s.byteAt (s.pc.toNat + 1))) := by
  rw [State.fetch, if_neg (by omega), if_neg (by omega)]

/-- Settles O8: the three ranges of `pc` are the three branches of the fetch, and a running step call whose fetch fails
raises the fault in the state with the timers advanced, whose fetch and `pc` are those before the call. -/
theorem fetchIsBigEndianAndChecked : Obligations.FetchIsBigEndianAndChecked := by
  refine ⟨fun s => ⟨State.fetch_of_odd, State.fetch_of_beyond, fun heven hinside =>
    ⟨_, State.fetch_of_inside heven hinside, wordOfBytes_toNat _ _⟩⟩, fun s s0 inp f hcalls hmode htime hfetch => ?_⟩
  have hbegun := runInstruction_of_fetch_error ((begun_fetch hcalls).trans hfetch)
  have hpc := begun_pc hcalls
  exact ⟨_, (step_eq_runInstruction_begun hcalls hmode htime).trans hbegun, rfl, hpc⟩

end Sys2Proof.Machine
end

section
/-! ## The display-wait hold (spec/40_execution_cycle.md R106) -/

namespace Sys2Proof.Machine

theorem isDraw_iff (i : Instr) : isDraw i = true ↔ ∃ x y n, i = .draw x y n := by
  cases i <;> simp [isDraw]

theorem holds_iff (i : Instr) (s : State) :
    holds i s = true ↔ (∃ x y n, i = .draw x y n) ∧ s.q.displayWait = true ∧ s.inp.vblank = false := by
  simp only [holds, Bool.and_eq_true, Bool.not_eq_true', isDraw_iff, and_assoc]

/-- Settles O9: the hold is its definition read as an equivalence, and a held step call ends in the state with the timers
advanced, where the fetch reads the same `pc` and bytes as before the call. -/
theorem displayWaitHoldsExactlyDraw : Obligations.DisplayWaitHoldsExactlyDraw := by
  refine ⟨holds_iff, fun s s0 inp op hcalls hmode htime hfetch hdraw hquirk hblank => ?_⟩
  have hpc := begun_pc hcalls
  have hagain := (begun_fetch hcalls).trans hfetch
  have hhold := (holds_iff (decode op) (Claims.begun s0 inp)).2
    ⟨hdraw, by rw [begun_q hcalls, hquirk], by rw [begun_inp hcalls, hblank]⟩
  exact ⟨_, (step_eq_runInstruction_begun hcalls hmode htime).trans (runInstruction_of_holds hagain hhold), rfl, hpc, hagain⟩

end Sys2Proof.Machine
end

/-! # Proofs of the family 41_control_flow.md: the skips and the jumps -/

section
/-! ## The skips on constants and registers (spec/41_control_flow.md R123 to R127) -/

namespace Sys2Proof.Machine

open Sys2Proof.Claims

/-- An instruction that ends as the common part of the skips does (R123) skips exactly when the condition `b` it computes
holds. -/
theorem skipsExactlyWhen_of_skipWhen {i : Instr} {s : State} {b : Bool} {c : Prop}
    (hexec : exec i s = finish (s.skipWhen b)) (hcond : b = true ↔ c) : skipsExactlyWhen i s c := by
  rw [skipsExactlyWhen, hexec, ← hcond]
  cases b with
  | true => exact ⟨s.pc + 2, rfl, fun _ => BitVec.toNat_add s.pc 2, fun h => absurd rfl h⟩
  | false => exact ⟨s.pc, rfl, nofun, fun _ => rfl⟩

theorem byte_beq_iff_toNat_eq (a b : Byte) : (a == b) = true ↔ a.toNat = b.toNat :=
  beq_iff_eq.trans BitVec.toNat_inj.symm

theorem byte_bne_iff_toNat_ne (a b : Byte) : (a != b) = true ↔ a.toNat ≠ b.toNat :=
  bne_iff_ne.trans (not_congr BitVec.toNat_inj.symm)

/-- Settles O27: each of the four is `skipWhen` of its comparison of bytes, which is the comparison of their values. -/
theorem skipsCompareRegisters : Obligations.SkipsCompareRegisters := fun x y n nn _ =>
  ⟨decode_wordRB 3 x nn rfl rfl, decode_wordRB 4 x nn rfl rfl,
    decode_wordRRN_skipIfEqualReg x y n, decode_wordRRN_skipIfNotEqualReg x y n,
    skipsExactlyWhen_of_skipWhen rfl (byte_beq_iff_toNat_eq _ _),
    skipsExactlyWhen_of_skipWhen rfl (byte_bne_iff_toNat_ne _ _),
    skipsExactlyWhen_of_skipWhen rfl (byte_beq_iff_toNat_eq _ _),
    skipsExactlyWhen_of_skipWhen rfl (byte_bne_iff_toNat_ne _ _)⟩

end Sys2Proof.Machine
end

section
/-! ## Goto and RelativeJump (spec/41_control_flow.md R120, R128) -/

namespace Sys2Proof.Machine

open Sys2Proof.Claims

/-- No word can be fetched from an odd `pc` or from one above the last word of the store (R104). -/
theorem State.fetch_error_of_odd_or_beyond {s : State} (h : s.pc.toNat % 2 = 1 ∨ 0xFFE < s.pc.toNat) :
    ∃ f, s.fetch = .error f := by
  rcases Nat.mod_two_eq_zero_or_one s.pc.toNat with heven | hodd
  · exact ⟨_, State.fetch_of_beyond heven (by unfold memSize; omega)⟩
  · exact ⟨_, State.fetch_of_odd hodd⟩

/-- The target of a RelativeJump never wraps (R128): 12 bits and 8 bits add up to less than 2^16. -/
theorem addressOf_add_wordOf_toNat (nnn : BitVec 12) (b : Byte) :
    (addressOf nnn + wordOf b).toNat = nnn.toNat + b.toNat := by
  rw [BitVec.toNat_add, addressOf_toNat, wordOf_toNat]; omega

/-- The high nibble of the address, as arithmetic on its value (R128). -/
theorem jumpRegister_val (q : Quirks) (nnn : BitVec 12) :
    (jumpRegister q nnn).val = if q.altJumpRegister then nnn.toNat / 256 else 0 := by
  unfold jumpRegister
  split
  · simp only [regOfNibble, BitVec.extractLsb'_toNat, Nat.shiftRight_eq_div_pow]; omega
  · rfl

/-- Settles O22: `nnn` is zero-extended into `pc`, where the fetch then meets its two checks. -/
theorem gotoSetsPc : Obligations.GotoSetsPc := fun nnn _ =>
  have htarget := addressOf_toNat nnn
  ⟨decode_wordA 1 nnn rfl rfl, addressOf nnn, rfl, htarget,
    fun h => State.fetch_error_of_odd_or_beyond (htarget.symm ▸ h)⟩

/-- Settles O23: the target is the sum without a wrap, so it is at most `0xFFF + 0xFF`. -/
theorem relativeJumpAddsRegister : Obligations.RelativeJumpAddsRegister := fun nnn s =>
  have htarget := addressOf_add_wordOf_toNat nnn (s.reg (jumpRegister s.q nnn))
  have hbound := htarget.trans_le (show _ ≤ 0xFFF + 0xFF by omega)
  ⟨decode_wordA 0xB nnn rfl rfl, _, jumpRegister s.q nnn, rfl, htarget, hbound, jumpRegister_val s.q nnn,
    State.fetch_error_of_odd_or_beyond⟩

end Sys2Proof.Machine
end

section
/-! ## SetConst, AddConst and Random (spec/42_register_constant.md R140 to R142) -/

namespace Sys2Proof.Machine

open Sys2Proof.Claims

/-! ### An instruction that ends with one register write -/

/-- What is asked of the registers afterwards is asked of the register file with the one write made. -/
theorem writesRegs_of_setReg {i : Instr} {s : State} {x : RegIdx} {b : Byte} {p : Vector Byte 16 → Prop}
    (hexec : exec i s = finish (s.setReg x b)) (hp : p (s.V.set x b)) : writesRegs i s p :=
  ⟨s.V.set x b, hexec, hp⟩

theorem getElem_set_reg_self (v : Vector Byte 16) (x : RegIdx) (b : Byte) : (v.set x b)[x] = b :=
  (getElem_set_reg v x x b).trans (if_pos rfl)

/-- One write leaves every other register, `VF` among them when it is not the one written. -/
theorem onlyResult_set {s : State} {x : RegIdx} {b : Byte} {r : Nat} (hr : b.toNat = r) :
    onlyResult s (s.V.set x b) x r :=
  ⟨by rw [getElem_set_reg_self, hr], fun k hk => (getElem_set_reg s.V x k b).trans (if_neg hk)⟩

/-- Settles O28: both are one register write, of `nn` and of the sum of bytes, which wraps at 256. -/
theorem constantsSetAndAdd : Obligations.ConstantsSetAndAdd := fun x nn s =>
  ⟨decode_wordRB 6 x nn rfl rfl, decode_wordRB 7 x nn rfl rfl,
    writesRegs_of_setReg rfl (onlyResult_set rfl),
    writesRegs_of_setReg rfl (onlyResult_set (BitVec.toNat_add s.V[x] nn))⟩

/-- Settles O29: one register write of `rand AND nn`, for which 0 is absorbing and `0xFF`, all ones, is neutral. -/
theorem randomMasksTheDraw : Obligations.RandomMasksTheDraw := fun x nn s =>
  have hwritten := getElem_set_reg_self s.V x (s.inp.rand &&& nn)
  ⟨decode_wordRB 0xC x nn rfl rfl,
    writesRegs_of_setReg rfl ⟨onlyResult_set (BitVec.toNat_and s.inp.rand nn),
      fun hzero => by rw [hwritten, hzero]; exact BitVec.and_zero,
      fun hones => by rw [hwritten, hones]; exact BitVec.and_allOnes⟩⟩

end Sys2Proof.Machine
end

/-! # Proofs of the family 43_math.md: the operations of category 0x8 -/

section
/-! ## Assign and the bitwise operations (spec/43_math.md R151 to R156) -/

namespace Sys2Proof.Machine

open Sys2Proof.Claims

/-! ### An instruction that ends with `write_rf` or `bitwise_write` -/

theorem State.writeRF_eq_with_V (x : RegIdx) (r f : Byte) (s : State) :
    s.writeRF x r f = { s with V := (s.writeRF x r f).V } := by
  unfold State.writeRF; split <;> rfl

/-- The registers after `write_rf` are what the claims ask for: its result in `V[x]`, its flag in `VF`, and for `x = 15`
whichever of the two is written last. -/
theorem resultAndFlag_writeRF (s : State) (x : RegIdx) (r f : Byte) :
    resultAndFlag s (s.writeRF x r f).V x r.toNat f.toNat := by
  refine ⟨fun hx => ?_, fun hx => ?_, fun k hkx hkF => ?_⟩
  · rw [State.writeRF_reg, State.writeRF_reg]; simp [hx]
  · rw [State.writeRF_reg]; cases s.cfg.flagLast <;> simp [hx]
  · rw [State.writeRF_reg, if_neg hkF, if_neg hkx]

theorem writesRegs_of_writeRF {i : Instr} {s : State} {x : RegIdx} {b c : Byte} {r f : Nat}
    (hexec : exec i s = finish (s.writeRF x b c)) (hr : b.toNat = r) (hf : c.toNat = f) :
    writesRegs i s (fun vs => resultAndFlag s vs x r f) := by
  refine ⟨(s.writeRF x b c).V, ?_, hr ▸ hf ▸ resultAndFlag_writeRF s x b c⟩
  rw [hexec, State.writeRF_eq_with_V]; rfl

/-- The two branches of `bitwise_write`: `write_rf` with the flag 0 under the quirk, one register write without it. -/
theorem bitwiseEffect_of_bitwiseWrite {i : Instr} {s : State} {x : RegIdx} {b : Byte} {r : Nat}
    (hexec : exec i s = finish (s.bitwiseWrite x b)) (hr : b.toNat = r) : bitwiseEffect i s x r := by
  unfold State.bitwiseWrite at hexec
  unfold bitwiseEffect
  split at hexec
  next hquirk => simp only [if_pos hquirk]; exact writesRegs_of_writeRF hexec hr rfl
  next hquirk => simp only [if_neg hquirk]; exact writesRegs_of_setReg hexec (onlyResult_set hr)

/-- Settles O30: Assign is one register write, and each of the others is `bitwise_write` of the operation on the values. -/
theorem assignAndBitwise : Obligations.AssignAndBitwise := fun x y _ =>
  ⟨decode_wordRRN 8 x y 0 rfl rfl, decode_wordRRN 8 x y 1 rfl rfl,
    decode_wordRRN 8 x y 2 rfl rfl, decode_wordRRN 8 x y 3 rfl rfl,
    writesRegs_of_setReg rfl (onlyResult_set rfl),
    bitwiseEffect_of_bitwiseWrite rfl (BitVec.toNat_or ..),
    bitwiseEffect_of_bitwiseWrite rfl (BitVec.toNat_and ..),
    bitwiseEffect_of_bitwiseWrite rfl (BitVec.toNat_xor ..)⟩

end Sys2Proof.Machine
end

section
/-! ## Add, Subtract and Difference (spec/43_math.md R157, R158, R161, R162) -/

namespace Sys2Proof.Machine

/-! ### Wrapping, as arithmetic on the values -/

/-- The sum of bytes in the spelling of the claims, with the wrap at 256 (R10). -/
theorem byte_add_toNat (a b : Byte) : (a + b).toNat = (a.toNat + b.toNat) % 256 := BitVec.toNat_add a b

theorem byte_sub_toNat (a b : Byte) : (a - b).toNat = (a.toNat + 256 - b.toNat) % 256 := by
  rw [BitVec.toNat_sub]; omega

/-- A sum of bytes reaches 256 exactly when it wraps to below a summand: 256 is more than the other one (R157). -/
theorem add_reaches_256_iff (a b : Byte) : 256 ≤ a.toNat + b.toNat ↔ (a.toNat + b.toNat) % 256 < a.toNat := by omega

/-- A difference of bytes is below its minuend exactly when there is something to take off and no borrow (R158). -/
theorem sub_lt_minuend_iff (a b : Byte) :
    (a.toNat + 256 - b.toNat) % 256 < a.toNat ↔ 1 ≤ b.toNat ∧ b.toNat ≤ a.toNat := by omega

/-! ### The values of the three flags -/

theorem b2n_eq_one_iff (p : Prop) [Decidable p] : (if p then 1 else 0) = 1 ↔ p := by simp

theorem flagByte_decide_toNat (p : Prop) [Decidable p] : (flagByte (decide p)).toNat = if p then 1 else 0 := by
  simp [flagByte_toNat]

theorem addFlag_add_toNat (a b : Byte) : (addFlag a (a + b)).toNat = if 256 ≤ a.toNat + b.toNat then 1 else 0 := by
  simp only [add_reaches_256_iff, ← byte_add_toNat]
  exact flagByte_decide_toNat _

theorem subtractFlag_sub_toNat (a b : Byte) :
    (subtractFlag a (a - b)).toNat = if (a.toNat + 256 - b.toNat) % 256 < a.toNat then 1 else 0 := by
  rw [← byte_sub_toNat]
  exact flagByte_decide_toNat _

/-- The flag of Difference is the number `f` that each reading, where it is the parameter's, asks for. -/
theorem differenceFlag_sub_toNat {d : DifferenceFlag} {a b : Byte} {f : Nat}
    (hless : d = .destLess → f = if a.toNat < (b.toNat + 256 - a.toNat) % 256 then 1 else 0)
    (hlessEq : d = .destLessEq → f = if a.toNat ≤ (b.toNat + 256 - a.toNat) % 256 then 1 else 0)
    (hgreater : d = .minuendGreater → f = if 1 ≤ a.toNat ∧ a.toNat ≤ b.toNat then 1 else 0) :
    (differenceFlag d a b (b - a)).toNat = f := by
  simp only [← sub_lt_minuend_iff, ← byte_sub_toNat] at hless hlessEq hgreater
  cases d with
  | destLess => exact (flagByte_decide_toNat _).trans (hless rfl).symm
  | destLessEq => exact (flagByte_decide_toNat _).trans (hlessEq rfl).symm
  | minuendGreater => exact (flagByte_decide_toNat _).trans (hgreater rfl).symm

/-- Settles O31: the flag asks whether the sum is below the old destination, which is whether it reached 256. -/
theorem addSetsCarry : Obligations.AddSetsCarry := by
  rintro x y s _ _ _ _ rfl rfl rfl rfl
  exact ⟨decode_wordRRN 8 x y 4 rfl rfl,
    (b2n_eq_one_iff _).trans (add_reaches_256_iff _ _),
    writesRegs_of_writeRF rfl (byte_add_toNat _ _) (addFlag_add_toNat _ _)⟩

/-- Settles O32: the flag is the formula's, and the formula says that something is taken off without a borrow. -/
theorem subtractSetsFlagByFormula : Obligations.SubtractSetsFlagByFormula := by
  rintro x y s _ _ _ _ rfl rfl rfl rfl
  exact ⟨decode_wordRRN 8 x y 5 rfl rfl,
    (b2n_eq_one_iff _).trans (sub_lt_minuend_iff _ _),
    writesRegs_of_writeRF rfl (byte_sub_toNat _ _) (subtractFlag_sub_toNat _ _)⟩

/-- Settles O33: the parameter is one of its three readings, the last of which is the formula of Subtract with the roles
of the operands swapped. -/
theorem differenceUnderEachReading : Obligations.DifferenceUnderEachReading := by
  rintro x y s _ _ _ f rfl rfl rfl hless hlessEq hgreater
  exact ⟨decode_wordRRN 8 x y 7 rfl rfl,
    sub_lt_minuend_iff _ _,
    writesRegs_of_writeRF rfl (byte_sub_toNat _ _) (differenceFlag_sub_toNat hless hlessEq hgreater)⟩

end Sys2Proof.Machine
end

section
/-! ## The shifts (spec/43_math.md R159, R160, R163) -/

namespace Sys2Proof.Machine

theorem shiftOperand_toNat (q : Quirks) (a b : Byte) :
    (shiftOperand q a b).toNat = if q.altShiftSource then b.toNat else a.toNat :=
  apply_ite BitVec.toNat _ b a

theorem byte_shiftRight_one_toNat (v : Byte) : (v >>> 1).toNat = v.toNat / 2 := by
  rw [BitVec.toNat_ushiftRight, Nat.shiftRight_eq_div_pow, pow_one]

theorem byte_shiftLeft_one_toNat (v : Byte) : (v <<< 1).toNat = v.toNat * 2 % 256 := by
  rw [BitVec.toNat_shiftLeft, Nat.shiftLeft_eq, pow_one]

/-- A bit of a byte as the flag it is shifted into. -/
theorem flagByte_getLsbD_toNat (v : Byte) (k : Nat) : (flagByte (v.getLsbD k)).toNat = v.toNat / 2 ^ k % 2 := by
  rw [flagByte_toNat, BitVec.getLsbD, ← Nat.toNat_testBit, Bool.toNat, Bool.cond_eq_ite]

theorem shiftRightFlag_toNat (v : Byte) : (shiftRightFlag v).toNat = v.toNat % 2 := by
  rw [shiftRightFlag, flagByte_getLsbD_toNat, pow_zero, Nat.div_one]

/-- Bit 7 is the top bit of a byte, so dividing leaves no other. -/
theorem shiftLeftFlag_toNat (v : Byte) : (shiftLeftFlag v).toNat = v.toNat / 128 := by
  rw [shiftLeftFlag, flagByte_getLsbD_toNat]; omega

/-- Settles O34: both shifts end with `write_rf` of the selected operand moved by one place and the bit moved out. -/
theorem shiftsMoveOneBit : Obligations.ShiftsMoveOneBit := by
  intro x y s v hv
  rw [← shiftOperand_toNat] at hv
  subst hv
  exact ⟨decode_wordRRN 8 x y 6 rfl rfl, decode_wordRRN 8 x y 0xE rfl rfl,
    writesRegs_of_writeRF rfl (byte_shiftRight_one_toNat _) (shiftRightFlag_toNat _),
    writesRegs_of_writeRF rfl (byte_shiftLeft_one_toNat _) (shiftLeftFlag_toNat _)⟩

end Sys2Proof.Machine
end

/-! # Proofs of the family 44_display.md: the framebuffer cleared, and a sprite of no row -/

section
/-! ## ClearScreen (spec/44_display.md R181, R182) -/

namespace Sys2Proof.Machine

theorem Framebuffer.lit_clear (k : Nat) : Framebuffer.clear.lit k = false := rfl

/-- Settles O36: the framebuffer ClearScreen leaves is the cleared one, where no element is lit. -/
theorem clearScreenClearsEveryPixel : Obligations.ClearScreenClearsEveryPixel := fun _ =>
  ⟨rfl, Framebuffer.clear, rfl, fun _ _ _ _ => Framebuffer.lit_clear _⟩

end Sys2Proof.Machine
end

section
/-! ## Draw (spec/44_display.md R188 to R190) -/

namespace Sys2Proof.Machine

open Sys2Proof.Claims

/-- A Draw whose rows can be read composites them at the start position and writes the collision into `VF` (R188). -/
theorem exec_draw_of_fits (x y : RegIdx) {n : Fin 16} {s : State} (h : n.val = 0 ∨ s.I.toNat + n.val ≤ memSize) :
    exec (.draw x y n) s =
      let drawn := drawSprite s.cfg s.q (startColumn s.cfg (s.reg x)) (startRow s.cfg (s.reg y))
        (s.mem.readBytes s.cfg s.I.toNat n.val) s.FB
      finish ({ s with FB := drawn.1 }.setReg VF (flagByte drawn.2)) := by
  rw [exec, execDraw, State.memRead_ok h]

/-- A sprite of no row flips no pixel and so cannot collide (R190). -/
theorem drawSprite_nil (cfg : Config) (q : Quirks) (x0 y0 : Nat) (fb : Framebuffer) :
    drawSprite cfg q x0 y0 [] fb = (fb, false) := rfl

/-- The access of no byte never fails, so a Draw of height 0 always completes, as one register write (R54, R190). -/
theorem exec_draw_zero (x y : RegIdx) (s : State) : exec (.draw x y 0) s = finish (s.setReg VF 0) := by
  have hrows : s.mem.readBytes s.cfg s.I.toNat (0 : Fin 16).val = [] := rfl
  rw [exec_draw_of_fits x y (.inl rfl), hrows, drawSprite_nil]
  rfl

/-- Settles O39: a Draw of height 0 is one write of 0 into `VF`. -/
theorem drawHeightZeroOnlyClearsFlag : Obligations.DrawHeightZeroOnlyClearsFlag := fun x y s =>
  ⟨decode_wordRRN 0xD x y 0 rfl rfl, writesRegs_of_setReg (exec_draw_zero x y s) (onlyResult_set rfl)⟩

end Sys2Proof.Machine
end

/-! # Proofs of the family 45_keypad.md: the key skips, and the host's press, release and query -/

section
/-! ## The key skips (spec/45_keypad.md R200 to R202) -/

namespace Sys2Proof.Machine

open Sys2Proof.Claims

/-! ### The two outcomes of looking a key code up -/

theorem keyCode_of_toNat_eq {b : Byte} {k : Fin 16} (h : b.toNat = k.val) : keyCode b = some k := by
  rw [keyCode, dif_pos (h ▸ k.isLt)]
  exact congrArg some (Fin.ext h)

theorem keyCode_of_beyond {b : Byte} (h : 15 < b.toNat) : keyCode b = none := dif_neg (by omega)

theorem exec_keyPressed_of_keyCode {x : RegIdx} {s : State} {k : Fin 16} (h : keyCode s.V[x] = some k) :
    exec (.keyPressed x) s = finish (s.skipWhen s.key[k]) := by
  rw [exec, execKeyPressed, State.reg, h]

theorem exec_keyNotPressed_of_keyCode {x : RegIdx} {s : State} {k : Fin 16} (h : keyCode s.V[x] = some k) :
    exec (.keyNotPressed x) s = finish (s.skipWhen (!s.key[k])) := by
  rw [exec, execKeyNotPressed, State.reg, h]

theorem onlyRecords_keyPressed {x : RegIdx} {s : State} (h : keyCode s.V[x] = none) :
    onlyRecords (.keyPressed x) s (.keyOutOfRange s.V[x]) := by
  rw [onlyRecords, exec, execKeyPressed, State.reg, h, raiseFault]

theorem onlyRecords_keyNotPressed {x : RegIdx} {s : State} (h : keyCode s.V[x] = none) :
    onlyRecords (.keyNotPressed x) s (.keyOutOfRange s.V[x]) := by
  rw [onlyRecords, exec, execKeyNotPressed, State.reg, h, raiseFault]

/-- Settles O41: a code of at most 15 names its key, whose state or its negation is the condition of the skip, and a code
above 15 names none, which is the fault. -/
theorem keySkipsPollTheKey : Obligations.KeySkipsPollTheKey := by
  intro x s
  refine ⟨decode_wordRF 0xE x 0x9E rfl rfl, decode_wordRF 0xE x 0xA1 rfl rfl, fun k hcode => ?_, fun hbeyond => ?_⟩
  · have hkey := keyCode_of_toNat_eq hcode
    exact ⟨skipsExactlyWhen_of_skipWhen (exec_keyPressed_of_keyCode hkey) Iff.rfl,
      skipsExactlyWhen_of_skipWhen (exec_keyNotPressed_of_keyCode hkey) (iff_of_eq (Bool.not_eq_true' _))⟩
  · have hnone := keyCode_of_beyond hbeyond
    exact ⟨onlyRecords_keyPressed hnone, onlyRecords_keyNotPressed hnone⟩

end Sys2Proof.Machine
end

section
/-! ## Press, release and the query (spec/45_keypad.md R207, R210 to R212) -/

namespace Sys2Proof.Machine

theorem step_of_script {s : State} {e : HostEvent} {rest : List HostEvent} (h : s.script = e :: rest) :
    step s = hostEvent e { s with script := rest } := by
  rw [step, nextEvent, h]

/-! ### The two outcomes of looking a host code up -/

theorem hostKey_val (j : Fin 16) : hostKey j.val = some j := dif_pos j.isLt

theorem hostKey_of_beyond {k : Nat} (h : 15 < k) : hostKey k = none := dif_neg (by omega)

/-- A key state after one is set. -/
theorem getElem_set_key (v : Vector Bool 16) (j i : Fin 16) (b : Bool) : (v.set j b)[i] = if i = j then b else v[i] := by
  simp only [Fin.getElem_fin, Vector.getElem_set, eq_comm (a := i), Fin.ext_iff]

/-! ### Completing a wait (R207) -/

theorem State.completeWait_of_none {s : State} (h : s.wait = none) (j : Fin 16) : s.completeWait j = s := by
  rw [State.completeWait, h]

theorem State.completeWait_of_some {s : State} {r : RegIdx} (h : s.wait = some r) (j : Fin 16) :
    s.completeWait j = { s.setReg r (BitVec.ofNat 8 j.val) with wait := none } := by
  rw [State.completeWait, h]

/-- Completing a wait leaves none pending and otherwise changes the registers alone. -/
theorem State.completeWait_eq_with_V (j : Fin 16) (s : State) :
    s.completeWait j = { s with wait := none, V := (s.completeWait j).V } := by
  cases h : s.wait with
  | none => rw [State.completeWait_of_none h, ← h]
  | some r => rw [State.completeWait_of_some h, State.setReg]

/-- The register waited on receives the code, and no other register is written. -/
theorem State.completeWait_reg (j : Fin 16) (s : State) (i : RegIdx) :
    (s.completeWait j).V[i] = if s.wait = some i then BitVec.ofNat 8 j.val else s.V[i] := by
  cases h : s.wait with
  | none => rw [State.completeWait_of_none h, if_neg nofun]
  | some r => simp only [State.completeWait_of_some h, State.setReg_V, getElem_set_reg, Option.some_inj, eq_comm (a := i)]

/-! ### A call with a code of a key, and with a code above 15 -/

theorem State.press_key (j : Fin 16) (s : State) :
    s.press j.val = ({ s with key := s.key.set j true, report := .changed (!s.key[j]) }).completeWait j := by
  rw [State.press, hostKey_val]

theorem State.press_of_beyond {k : Nat} (h : 15 < k) (s : State) : s.press k = { s with report := .rejected } := by
  rw [State.press, hostKey_of_beyond h]

theorem State.release_key (j : Fin 16) (s : State) :
    s.release j.val = { s with key := s.key.set j false, report := .changed s.key[j] } := by
  rw [State.release, hostKey_val]

theorem State.release_of_beyond {k : Nat} (h : 15 < k) (s : State) : s.release k = { s with report := .rejected } := by
  rw [State.release, hostKey_of_beyond h]

theorem State.isPressed_key (j : Fin 16) (s : State) : s.isPressed j.val = some s.key[j] := by
  rw [State.isPressed, hostKey_val, Option.map_some]

theorem State.isPressed_of_beyond {k : Nat} (h : 15 < k) (s : State) : s.isPressed k = none := by
  rw [State.isPressed, hostKey_of_beyond h, Option.map_none]

/-- Settles O43: an accepted press is one key set, its report, and the completion of the wait, which writes the register
waited on alone. -/
theorem pressSetsKeyAndCompletesWait : Obligations.PressSetsKeyAndCompletesWait := by
  intro s k rest hscript
  have hstep : step s = .next ({ s with script := rest }.press k) := step_of_script hscript
  refine ⟨fun hbeyond => by rw [hstep, State.press_of_beyond hbeyond], ?_⟩
  rintro j rfl
  rw [State.press_key, State.completeWait_eq_with_V] at hstep
  exact ⟨_, hstep, rfl, fun i => getElem_set_key s.key j i true, rfl, State.completeWait_reg j _, rfl⟩

/-- Settles O44: an accepted release is one key cleared and its report, and the query looks the key up. -/
theorem releaseNeverCompletesWait : Obligations.ReleaseNeverCompletesWait := by
  intro s k rest hscript
  have hstep : step s = .next ({ s with script := rest }.release k) := step_of_script hscript
  refine ⟨fun hbeyond => ⟨by rw [hstep, State.release_of_beyond hbeyond], State.isPressed_of_beyond hbeyond s⟩, ?_⟩
  rintro j rfl
  rw [State.release_key] at hstep
  exact ⟨State.isPressed_key j s, _, hstep, fun i => getElem_set_key s.key j i false⟩

end Sys2Proof.Machine
end

/-! # Proofs of the family 46_timer_pointer_memory.md: the timers, the pointer, and the store and load of bytes at it -/

section
/-! ## The timers and the pointer (spec/46_timer_pointer_memory.md R220 to R225) -/

namespace Sys2Proof.Machine

theorem byte_pos_iff_ne_zero (b : Byte) : 0 < b.toNat ↔ b ≠ 0 :=
  Nat.pos_iff_ne_zero.trans (not_congr (BitVec.toNat_inj (y := 0)))

theorem State.toneOn_iff (s : State) : s.toneOn = true ↔ s.ST ≠ 0 :=
  decide_eq_true_iff.trans (byte_pos_iff_ne_zero s.ST)

/-- Settles O45: each of the three is one write of a register or a timer, and the tone is on while `ST` is not 0. -/
theorem timerRegistersMove : Obligations.TimerRegistersMove := fun x s =>
  ⟨decode_wordRF 0xF x 0x07 rfl rfl, decode_wordRF 0xF x 0x15 rfl rfl, decode_wordRF 0xF x 0x18 rfl rfl,
    writesRegs_of_setReg rfl (onlyResult_set rfl),
    ⟨s.V[x], rfl, rfl⟩,
    ⟨_, rfl, rfl, State.toneOn_iff _⟩⟩

/-- The pointer after an addition, with the wrap at 2^16 (R224). -/
theorem word_add_wordOf_toNat (a : Word) (b : Byte) : (a + wordOf b).toNat = (a.toNat + b.toNat) % 65536 := by
  rw [BitVec.toNat_add, wordOf_toNat]

/-- Settles O46: both are one write of `I`, of the zero-extended `nnn` and of the wrapping sum. -/
theorem pointerSetAndAdd : Obligations.PointerSetAndAdd := fun x nnn s =>
  ⟨decode_wordA 0xA nnn rfl rfl, decode_wordRF 0xF x 0x1E rfl rfl,
    ⟨addressOf nnn, rfl, addressOf_toNat nnn⟩,
    ⟨s.I + wordOf s.V[x], rfl, word_add_wordOf_toNat s.I s.V[x]⟩⟩

/-- The font lies inside the store, so the address of a glyph does not wrap (R34, R225). -/
theorem glyphAddress_toNat {cfg : Config} {d : Byte} (hwf : cfg.wf = true) (hd : d.toNat ≤ 15) :
    (glyphAddress cfg d).toNat = cfg.fontBase + 5 * d.toNat := by
  obtain ⟨-, -, -, -, -, hfont, -⟩ := of_decide_eq_true hwf
  have hinside : cfg.fontBase + 80 ≤ 4096 := hfont
  exact (BitVec.toNat_ofNat ..).trans (Nat.mod_eq_of_lt (by omega))

theorem exec_fontGlyph_of_digit {x : RegIdx} {s : State} (h : s.V[x].toNat ≤ 15) :
    exec (.fontGlyph x) s = finish (s.setI (glyphAddress s.cfg s.V[x])) := if_neg (Nat.not_lt.2 h)

theorem exec_fontGlyph_of_beyond {x : RegIdx} {s : State} (h : 15 < s.V[x].toNat) :
    exec (.fontGlyph x) s = raiseFault (.fontDigitOutOfRange s.V[x]) s := if_pos h

/-- Settles O47: the range check of FontGlyph is the claim's, and the address of a digit's glyph does not wrap. -/
theorem fontGlyphPointsAtDigit : Obligations.FontGlyphPointsAtDigit := fun x s hwf =>
  ⟨decode_wordRF 0xF x 0x29 rfl rfl,
    fun hdigit => ⟨glyphAddress s.cfg s.V[x], exec_fontGlyph_of_digit hdigit, glyphAddress_toNat hwf hdigit⟩,
    exec_fontGlyph_of_beyond⟩

end Sys2Proof.Machine
end

section
/-! ## SplitNumber, RegisterDump and RegisterLoad (spec/46_timer_pointer_memory.md R226, R236, R237) -/

namespace Sys2Proof.Machine

open Sys2Proof.Claims

/-! ### Reading a byte after a store of consecutive bytes (R57) -/

section
variable {s t : State} {a : Nat} {bs : List Byte}

theorem State.byteAt_stored (hwf : Memory.wf s.cfg s.mem) (ht : t = { s with mem := s.mem.writeBytes s.cfg a bs })
    {k : Nat} (hk : k < bs.length) : t.byteAt (a + k) = bs.getD k 0 := by
  subst ht
  rw [State.byteAt, Memory.read_writeBytes bs a hwf.1, if_pos (by omega), Nat.add_sub_cancel_left]

theorem State.byteAt_outside_stored (hwf : Memory.wf s.cfg s.mem)
    (ht : t = { s with mem := s.mem.writeBytes s.cfg a bs }) {a' : Nat} (ha : a' < a ∨ a + bs.length ≤ a') :
    t.byteAt a' = s.byteAt a' := by
  subst ht
  rw [State.byteAt, Memory.read_writeBytes bs a hwf.1, if_neg (by omega), State.byteAt]

end

/-! ### The digits of SplitNumber -/

theorem decimalDigits_length (v : Byte) : (decimalDigits v).length = 3 := rfl

/-- Every digit is below 256, so its byte holds it. -/
theorem decimalDigits_getD_toNat (v : Byte) :
    ((decimalDigits v).getD 0 0).toNat = v.toNat / 100 ∧ ((decimalDigits v).getD 1 0).toNat = v.toNat / 10 % 10 ∧
      ((decimalDigits v).getD 2 0).toNat = v.toNat % 10 := by
  refine ⟨?_, ?_, ?_⟩ <;> exact (BitVec.toNat_ofNat ..).trans (Nat.mod_eq_of_lt (by omega))

/-! ### The two outcomes of each instruction: the bytes fit into the store, or they do not (R54) -/

theorem exec_splitNumber_of_fits (x : RegIdx) {s : State} (h : s.I.toNat + 3 ≤ memSize) :
    exec (.splitNumber x) s =
      finish { s with mem := s.mem.writeBytes s.cfg s.I.toNat (decimalDigits s.V[x]) } := by
  rw [exec, execSplitNumber, State.memWrite_ok h, State.reg]

theorem exec_splitNumber_of_beyond (x : RegIdx) {s : State} (h : memSize < s.I.toNat + 3) :
    exec (.splitNumber x) s = raiseFault (.memoryOutOfRange s.I 3) s := by
  have hlen := decimalDigits_length s.V[x]
  rw [← hlen] at h ⊢
  rw [exec, execSplitNumber, State.reg, State.memWrite_error (by omega) h]

theorem exec_registerDump_of_fits {x : RegIdx} {s : State} (h : s.I.toNat + (x.val + 1) ≤ memSize) :
    exec (.registerDump x) s =
      finish ({ s with mem := s.mem.writeBytes s.cfg s.I.toNat (registersUpTo x s) }.stepPointer x) := by
  rw [← registersUpTo_length x s] at h
  rw [exec, execRegisterDump, State.memWrite_ok h]

theorem exec_registerDump_of_beyond {x : RegIdx} {s : State} (h : memSize < s.I.toNat + (x.val + 1)) :
    exec (.registerDump x) s = raiseFault (.memoryOutOfRange s.I (x.val + 1)) s := by
  have hlen := registersUpTo_length x s
  rw [← hlen] at h ⊢
  rw [exec, execRegisterDump, State.memWrite_error (by omega) h]

theorem exec_registerLoad_of_fits {x : RegIdx} {s : State} (h : s.I.toNat + (x.val + 1) ≤ memSize) :
    exec (.registerLoad x) s =
      finish ({ s with V := writeRegs 0 (s.mem.readBytes s.cfg s.I.toNat (x.val + 1)) s.V }.stepPointer x) := by
  rw [exec, execRegisterLoad, State.memRead_ok (.inr h)]

theorem exec_registerLoad_of_beyond {x : RegIdx} {s : State} (h : memSize < s.I.toNat + (x.val + 1)) :
    exec (.registerLoad x) s = raiseFault (.memoryOutOfRange s.I (x.val + 1)) s := by
  rw [exec, execRegisterLoad, State.memRead_error (Nat.succ_ne_zero _) h]

/-! ### The pointer and the registers afterwards -/

theorem State.stepPointer_eq_with_I (x : RegIdx) (s : State) : s.stepPointer x = { s with I := (s.stepPointer x).I } := by
  unfold State.stepPointer
  split <;> rfl

/-- Past the last byte of an access inside the store, `I` does not wrap. -/
theorem State.stepPointer_I_toNat {x : RegIdx} {s : State} (h : s.I.toNat + (x.val + 1) ≤ 4096) :
    (s.stepPointer x).I.toNat = if s.q.memSetsPointer then s.I.toNat + (x.val + 1) else s.I.toNat := by
  have hsum : (s.I + BitVec.ofNat 16 (x.val + 1)).toNat = s.I.toNat + (x.val + 1) := by
    rw [BitVec.toNat_add, BitVec.toNat_ofNat]; omega
  rw [State.stepPointer_I, apply_ite BitVec.toNat, hsum]

/-- The registers after RegisterLoad: those up to `x` from the store, those above as they were (R237). -/
theorem getElem_writeRegs_readBytes (x k : RegIdx) (s : State) :
    (writeRegs 0 (s.mem.readBytes s.cfg s.I.toNat (x.val + 1)) s.V)[k] =
      if k.val ≤ x.val then s.byteAt (s.I.toNat + k.val) else s.V[k] := by
  rw [writeRegs_getElem, Memory.readBytes_length, Nat.sub_zero]
  by_cases hk : k.val ≤ x.val
  · rw [if_pos (by omega), if_pos hk, Memory.readBytes_getD _ _ _ (by omega), State.byteAt]
  · rw [if_neg (by omega), if_neg hk]

/-- Settles O48: a store of the three digits, each less than 256, or the fault of the range check. -/
theorem splitNumberStoresDigits : Obligations.SplitNumberStoresDigits := by
  intro x s hwf
  refine ⟨decode_wordRF 0xF x 0x33 rfl rfl, fun hfits => ⟨_, exec_splitNumber_of_fits x hfits, fun t ht => ?_⟩,
    exec_splitNumber_of_beyond x⟩
  have hstored (k : Nat) (hk : k < 3) : (t.byteAt (s.I.toNat + k)).toNat = ((decimalDigits s.V[x]).getD k 0).toNat :=
    congrArg BitVec.toNat (State.byteAt_stored hwf ht hk)
  obtain ⟨hhundreds, htens, hunits⟩ := decimalDigits_getD_toNat s.V[x]
  exact ⟨(hstored 0 (by decide)).trans hhundreds, (hstored 1 (by decide)).trans htens,
    (hstored 2 (by decide)).trans hunits, fun a ha => State.byteAt_outside_stored hwf ht ha⟩

/-- Settles O49: a store of the registers up to `x` and the move of `I`, or the fault of the range check. -/
theorem registerDumpStoresRegisters : Obligations.RegisterDumpStoresRegisters := by
  intro x s hwf
  refine ⟨decode_wordRF 0xF x 0x55 rfl rfl, fun hfits => ?_, exec_registerDump_of_beyond⟩
  have hexec := exec_registerDump_of_fits hfits
  rw [State.stepPointer_eq_with_I] at hexec
  refine ⟨_, _, hexec, State.stepPointer_I_toNat hfits, fun t ht => ⟨fun k hk => ?_, fun a ha => ?_⟩⟩
  · rw [State.byteAt_stored hwf ht (by rw [registersUpTo_length]; omega), registersUpTo_getD x s k hk]
  · exact State.byteAt_outside_stored hwf ht (by rwa [registersUpTo_length])

/-- Settles O50: a load of the registers up to `x` and the move of `I`, or the fault of the range check. -/
theorem registerLoadReadsBytes : Obligations.RegisterLoadReadsBytes := by
  intro x s
  refine ⟨decode_wordRF 0xF x 0x65 rfl rfl, fun hfits => ?_, exec_registerLoad_of_beyond⟩
  have hexec := exec_registerLoad_of_fits hfits
  rw [State.stepPointer_eq_with_I] at hexec
  exact ⟨_, _, hexec, State.stepPointer_I_toNat hfits, fun k => getElem_writeRegs_readBytes x k s⟩

end Sys2Proof.Machine
end

/-! # Proofs of the family 60_exceptions.md: the timer advance, and the errors of undefined words -/

section
/-! ## The timer advance (spec/60_exceptions.md R262) -/

namespace Sys2Proof.Machine

/-- Whole ticks and the carry make up the accumulated tick fractions. -/
theorem State.ticks_add_carry (now : Nat) (s : State) :
    s.tickFractions now / nanosPerSecond * nanosPerSecond + s.tickFractions now % nanosPerSecond =
      s.tacc + (now - s.tlast) * s.cfg.tickRate := Nat.div_add_mod' ..

/-- The carry is less than one tick. -/
theorem State.carry_lt (now : Nat) (s : State) : s.tickFractions now % nanosPerSecond < nanosPerSecond :=
  Nat.mod_lt _ (by decide)

theorem callStep_of_time_backwards {s : State} (hfault : s.fault = none) (hrunning : s.running = true)
    (htime : s.inp.now < s.tlast) : callStep s = .fault .timeBackwards := by
  simp only [callStep, hfault, hrunning, htime, if_true]

/-- Settles O10: the advance is division with remainder of the tick fractions by 10^9, and a live step call checks the time
before it advances anything. -/
theorem timersAdvanceByWholeTicks : Obligations.TimersAdvanceByWholeTicks := by
  refine ⟨fun s now _ => ⟨s.tickFractions now / nanosPerSecond, _, _, _, rfl, s.ticks_add_carry now, s.carry_lt now,
    countDown_toNat .., countDown_toNat ..⟩, fun s s0 inp hcalls hfault hrunning htime => ?_⟩
  rw [step_of_calls hcalls, calls_eq hcalls]
  exact callStep_of_time_backwards hfault hrunning htime

end Sys2Proof.Machine
end

section
/-! ## What an unknown tag carries, and its error (spec/60_exceptions.md R251, R252; spec/30_encoding.md R77, R79, R80) -/

namespace Sys2Proof

/-- What the decoder puts into an unknown tag of the word `w`: the low nibble of a word of category 0x8 (R79), and the whole
word in the other open categories (R77, R80). The defined instructions are not constrained. -/
def CarriesWord (w : Word) : Instr → Prop
  | .mathUnknown _ _ sub => w.toNat / 4096 = 8 ∧ sub.toNat = w.toNat % 16
  | .undefinedZero raw | .undefinedKey raw | .undefinedMisc raw => raw = w
  | _ => True

theorem decodeZero_carriesWord (w : Word) : CarriesWord w (decodeZero w) := by
  unfold decodeZero
  split
  · trivial
  · split
    · trivial
    · rfl

theorem decodeMath_carriesWord {w : Word} (x y : RegIdx) (hcat : (fieldC w).toNat = 8) :
    CarriesWord w (decodeMath x y (fieldN w)) := by
  unfold decodeMath
  split
  case h_10 => exact ⟨(fieldC_toNat w).symm.trans hcat, fieldN_toNat w⟩
  all_goals trivial

theorem decodeKey_carriesWord (w : Word) : CarriesWord w (decodeKey w) := by
  unfold decodeKey
  split
  case h_3 => rfl
  all_goals trivial

theorem decodeMisc_carriesWord (w : Word) : CarriesWord w (decodeMisc w) := by
  unfold decodeMisc
  split
  case h_10 => rfl
  all_goals trivial

/-- Four categories (0x0, 0x8, 0xE, 0xF: the four cases named here) are open to unknown tags; the others decode to a defined
instruction whatever their fields. -/
theorem decode_carriesWord (w : Word) : CarriesWord w (decode w) := by
  unfold decode
  split
  case h_1 => exact decodeZero_carriesWord w
  case h_9 hcat => exact decodeMath_carriesWord _ _ hcat
  case h_15 => exact decodeKey_carriesWord w
  case h_16 => exact decodeMisc_carriesWord w
  all_goals trivial

theorem carriesWord_of_decode_eq {w : Word} {i : Instr} (h : decode w = i) : CarriesWord w i := h ▸ decode_carriesWord w

end Sys2Proof

namespace Sys2Proof.Machine

/-! ### Executing an unknown tag reports its error and does nothing else (R251, R252) -/

theorem exec_mathUnknown (x y : RegIdx) (sub : BitVec 4) (s : State) :
    exec (.mathUnknown x y sub) s = .next { s with report := .err (.invalidMathOperation sub) } := rfl

theorem exec_undefinedZero (raw : Word) (s : State) :
    exec (.undefinedZero raw) s = .next { s with report := .err (.invalidOpcode raw) } := rfl

theorem exec_undefinedKey (raw : Word) (s : State) :
    exec (.undefinedKey raw) s = .next { s with report := .err (.invalidOpcode raw) } := rfl

theorem exec_undefinedMisc (raw : Word) (s : State) :
    exec (.undefinedMisc raw) s = .next { s with report := .err (.invalidOpcode raw) } := rfl

/-- Settles O35: an unknown tag carries its word or nibble, and its execution is `raiseError` with what it carries. -/
theorem undefinedWordsReturnErrors : Obligations.UndefinedWordsReturnErrors := by
  intro w s
  refine ⟨fun x y sub h => ⟨exec_mathUnknown x y sub s, carriesWord_of_decode_eq h⟩, fun raw h => ?_, fun raw h => ?_,
    fun raw h => ?_⟩
  all_goals obtain rfl : raw = w := carriesWord_of_decode_eq h
  · exact ⟨rfl, exec_undefinedZero raw s⟩
  · exact ⟨rfl, exec_undefinedKey raw s⟩
  · exact ⟨rfl, exec_undefinedMisc raw s⟩

end Sys2Proof.Machine
end

/-! # Proofs of the statements over the whole machine: the encoding, the frames, the invariant and the host's events -/

section
/-! ## What the decoder returns, and its word (spec/30_encoding.md R76 to R83) -/

namespace Sys2Proof

/-! ### A word is the encoding of its own fields, in each format (R71, R72) -/

theorem encodeA_of_fields {w : Word} {c : BitVec 4} (hcat : (fieldC w).toNat = c.toNat) :
    encodeA c (fieldNNN w) = w :=
  BitVec.eq_of_toNat_eq (by rw [encodeA_toNat, ← hcat, fieldC_toNat, fieldNNN_toNat]; omega)

theorem encodeRB_of_fields {w : Word} {c : BitVec 4} {nn : Byte} (hcat : (fieldC w).toNat = c.toNat)
    (hcode : (fieldNN w).toNat = nn.toNat) : encodeRB c (fieldX w) nn = w :=
  BitVec.eq_of_toNat_eq (by rw [encodeRB_toNat, ← hcat, ← hcode, fieldC_toNat, fieldX_val, fieldNN_toNat]; omega)

theorem encodeRRN_of_fields {w : Word} {c : BitVec 4} (hcat : (fieldC w).toNat = c.toNat) :
    encodeRRN c (fieldX w) (fieldY w) (fieldN w) = w :=
  BitVec.eq_of_toNat_eq (by
    rw [encodeRRN_toNat, ← hcat, fieldC_toNat, fieldX_val, fieldY_val, fieldN_toNat]; omega)

/-! ### The two categories whose low nibble is ignored (R78) -/

/-- The word of the instruction `w` decodes to: `w` itself, but for the ignored nibble, which is cleared (R83). -/
def canonicalWord (w : Word) : Word :=
  if w.toNat / 4096 = 5 ∨ w.toNat / 4096 = 9 then BitVec.ofNat 16 (w.toNat / 16 * 16) else w

theorem encodeRRN_zero_of_fields {w : Word} {c : BitVec 4} (hcat : (fieldC w).toNat = c.toNat)
    (hignored : c.toNat = 5 ∨ c.toNat = 9) : encodeRRN c (fieldX w) (fieldY w) 0 = canonicalWord w := by
  rw [← hcat, fieldC_toNat] at hignored
  rw [canonicalWord, if_pos hignored]
  refine BitVec.eq_of_toNat_eq ?_
  have hzero : (0 : BitVec 4).toNat = 0 := rfl
  rw [encodeRRN_toNat, ← hcat, fieldC_toNat, fieldX_val, fieldY_val, hzero, BitVec.toNat_ofNat]; omega

theorem canonicalWord_of_fieldC {w : Word} {n : Nat} (hcat : (fieldC w).toNat = n) (h5 : n ≠ 5) (h9 : n ≠ 9) :
    canonicalWord w = w :=
  if_neg (by rw [← fieldC_toNat, hcat]; omega)

/-- Two words have one canonical word exactly when they are equal or differ in an ignored nibble. -/
theorem canonicalWord_eq_iff (w w' : Word) :
    canonicalWord w = canonicalWord w' ↔
      w = w' ∨ ((w.toNat / 4096 = 5 ∨ w.toNat / 4096 = 9) ∧ w.toNat / 16 = w'.toNat / 16) := by
  have hcleared (v : Word) : (BitVec.ofNat 16 (v.toNat / 16 * 16)).toNat = v.toNat / 16 * 16 := by
    rw [BitVec.toNat_ofNat]; omega
  rw [← BitVec.toNat_inj, ← BitVec.toNat_inj]
  simp only [canonicalWord, apply_ite BitVec.toNat, hcleared]
  split <;> split <;> omega

/-! ### What each open category returns is well formed, and its word is the word decoded -/

theorem decodeZero_spells {w : Word} (hcat : fieldC w = 0) : (decodeZero w).wf = true ∧ encode (decodeZero w) = w := by
  unfold decodeZero
  split
  next hclear => exact ⟨rfl, hclear.symm⟩
  next hclear =>
    split
    next hret => exact ⟨rfl, hret.symm⟩
    next hret => exact ⟨(wf_undefinedZero_iff w).2 ⟨hcat, hclear, hret⟩, rfl⟩

theorem decodeMath_spells (x y : RegIdx) (n : BitVec 4) :
    (decodeMath x y n).wf = true ∧ encode (decodeMath x y n) = encodeRRN 8 x y n := by
  unfold decodeMath
  split
  case h_10 => exact ⟨(wf_mathUnknown_iff x y n).2 (by grind), rfl⟩
  all_goals
    rename_i hcode
    exact ⟨rfl, congrArg (encodeRRN 8 x y) (BitVec.eq_of_toNat_eq hcode.symm)⟩

theorem decodeKey_spells {w : Word} (hcat : fieldC w = 0xE) : (decodeKey w).wf = true ∧ encode (decodeKey w) = w := by
  unfold decodeKey
  split
  case h_3 => exact ⟨(wf_undefinedKey_iff w).2 ⟨hcat, by simp_all⟩, rfl⟩
  all_goals
    rename_i hcode
    exact ⟨rfl, encodeRB_of_fields (congrArg BitVec.toNat hcat) hcode⟩

theorem decodeMisc_spells {w : Word} (hcat : fieldC w = 0xF) :
    (decodeMisc w).wf = true ∧ encode (decodeMisc w) = w := by
  unfold decodeMisc
  split
  case h_10 => exact ⟨(wf_undefinedMisc_iff w).2 ⟨hcat, by simp_all⟩, rfl⟩
  all_goals
    rename_i hcode
    exact ⟨rfl, encodeRB_of_fields (congrArg BitVec.toNat hcat) hcode⟩

/-- The other half of R83, category by category (`h_1` is 0x0, `h_16` is 0xF). -/
theorem decode_spells (w : Word) : (decode w).wf = true ∧ encode (decode w) = canonicalWord w := by
  unfold decode
  split
  case h_6 hcat => exact ⟨rfl, encodeRRN_zero_of_fields hcat (.inl rfl)⟩
  case h_10 hcat => exact ⟨rfl, encodeRRN_zero_of_fields hcat (.inr rfl)⟩
  case h_16 =>
    have hcat : (fieldC w).toNat = 0xF := by have := (fieldC w).isLt; grind
    rw [canonicalWord_of_fieldC hcat (by decide) (by decide)]
    exact decodeMisc_spells (BitVec.eq_of_toNat_eq hcat)
  all_goals
    rename_i hcat
    rw [canonicalWord_of_fieldC hcat (by decide) (by decide)]
  case h_1 => exact decodeZero_spells (BitVec.eq_of_toNat_eq hcat)
  case h_2 | h_3 | h_11 | h_12 => exact ⟨rfl, encodeA_of_fields hcat⟩
  case h_4 | h_5 | h_7 | h_8 | h_13 => exact ⟨rfl, encodeRB_of_fields hcat rfl⟩
  case h_9 =>
    obtain ⟨hwf, hword⟩ := decodeMath_spells (fieldX w) (fieldY w) (fieldN w)
    exact ⟨hwf, hword.trans (encodeRRN_of_fields hcat)⟩
  case h_14 =>
    have hword := encodeRRN_of_fields (c := 0xD) hcat
    exact ⟨rfl, by rw [encode, nibbleOfFin_regOfNibble, hword]⟩
  case h_15 => exact decodeKey_spells (BitVec.eq_of_toNat_eq hcat)

theorem wf_iff_decoded (i : Instr) : i.wf = true ↔ ∃ w, decode w = i := by
  refine ⟨fun hwf => ⟨encode i, decode_encode hwf⟩, ?_⟩
  rintro ⟨w, rfl⟩
  exact (decode_spells w).1

/-- Two words decode alike exactly when their canonical words are one: a decoded instruction and its word determine each
other. -/
theorem decode_eq_iff (w w' : Word) : decode w = decode w' ↔ canonicalWord w = canonicalWord w' := by
  obtain ⟨hwf, hword⟩ := decode_spells w
  obtain ⟨hwf', hword'⟩ := decode_spells w'
  rw [← hword, ← hword']
  refine ⟨congrArg encode, fun h => ?_⟩
  rw [← decode_encode hwf, h, decode_encode hwf']

end Sys2Proof

namespace Sys2Proof.Machine

open Sys2Proof.Claims

theorem encodeRRN_eq_wordRRN (c : BitVec 4) (x y : RegIdx) (n : BitVec 4) :
    encodeRRN c x y n = wordRRN c.toNat x y n.toNat := by
  have h := wordRRN_eq_encodeRRN c x y (regOfNibble n)
  rw [nibbleOfFin_regOfNibble] at h
  exact h.symm

/-- Settles O2: the decoder returns well-formed instructions whose words are the canonical ones, `decode` undoes `encode`
on those, and so decoding alike is having one canonical word. -/
theorem decodeAndEncodeAgree : Obligations.DecodeAndEncodeAgree :=
  ⟨wf_iff_decoded, fun _ => decode_encode, fun w => (decode_spells w).2,
    fun w w' => (decode_eq_iff w w').trans (canonicalWord_eq_iff w w'),
    fun x y n _ => ⟨encodeRRN_eq_wordRRN 5 x y 0, encodeRRN_eq_wordRRN 9 x y 0, rfl, rfl, rfl,
      encodeRRN_eq_wordRRN 8 x y n⟩⟩

/-- Settles O3: the decoder's value on each of the fixed words. -/
theorem sampleWordsDecode : Obligations.SampleWordsDecode := by
  unfold Obligations.SampleWordsDecode
  decide

end Sys2Proof.Machine
end

section
/-! ## The outcomes of the instructions that check first -/

namespace Sys2Proof.Machine

open Sys2Proof.Claims

theorem exec_draw_of_beyond (x y : RegIdx) {n : Fin 16} {s : State} (h0 : n.val ≠ 0)
    (h : memSize < s.I.toNat + n.val) : exec (.draw x y n) s = raiseFault (.memoryOutOfRange s.I n.val) s := by
  rw [exec, execDraw, State.memRead_error h0 h]

/-- Settles O38: the rows are read, and the range of the read is checked, before anything is written. -/
theorem drawOutOfRangeFaults : Obligations.DrawOutOfRangeFaults := fun x y _ _ h0 h => exec_draw_of_beyond x y h0 h

/-- Settles O42: the one write of WaitKeyPress is the marker, which is what tells the two modes apart. -/
theorem waitKeyPressSetsOnlyTheMarker : Obligations.WaitKeyPressSetsOnlyTheMarker := by
  intro x s
  refine ⟨decode_wordRF 0xF x 0x0A rfl rfl, _, rfl, rfl, fun hmode => ?_⟩
  obtain ⟨hfault, hrunning, -⟩ := (mode_running_iff s).1 hmode
  exact (mode_keyWaiting_iff _).2 ⟨hfault, hrunning, x, rfl⟩

/-- Settles O26: the entry Call pushes is the one Return pops. -/
theorem returnUndoesCall : Obligations.ReturnUndoesCall := by
  intro nnn s t u hroom hcall hstack
  cases (exec_call_of_room nnn hroom.ne).symm.trans hcall
  exact exec_ret_of_snoc hstack

end Sys2Proof.Machine
end

section
/-! ## What an instruction can do (spec/40_execution_cycle.md R107) -/

namespace Sys2Proof.Machine

open Sys2Proof.Claims

/-- The instructions whose checks can fail (R253). -/
def mayFault : Instr → Prop
  | .call _ | .draw _ _ _ | .keyPressed _ | .keyNotPressed _ | .fontGlyph _ | .splitNumber _ | .registerDump _
  | .registerLoad _ => True
  | _ => False

/-- The instructions that may move `I`, the last two under the quirk alone (R23). -/
def mayMovePointer (q : Quirks) : Instr → Prop
  | .setPointer _ | .addPointer _ | .fontGlyph _ => True
  | .registerDump _ | .registerLoad _ => q.memSetsPointer = true
  | _ => False

/-- `Effect s i t`: `t` is one of the next states `i` may lead to from `s`, by the part of the state that it changes. -/
inductive Effect (s : State) : Instr → State → Prop
  | regs {i : Instr} (vs : Vector Byte 16) (hvs : ∀ k : RegIdx, ¬mayWriteReg s.q i k → vs[k] = s.V[k]) :
      Effect s i { s with V := vs, report := .ok }
  | jump {i : Instr} (p : Word) (hp : p = s.pc ∨ p = s.pc + 2 ∨ p.toNat ≤ 0x10FE) :
      Effect s i { s with pc := p, report := .ok }
  | pointer {i : Instr} (a : Word) (hi : mayMovePointer s.q i) : Effect s i { s with I := a, report := .ok }
  | ret (below : List Word) (v : Word) (h : s.stack = below ++ [v]) :
      Effect s .ret { s with stack := below, pc := v, report := .ok }
  | retEmpty (h : s.stack = []) : Effect s .ret { s with running := false, report := .err .invalidState }
  | call (nnn : BitVec 12) (h : s.stack.length ≠ s.cfg.stackDepth) :
      Effect s (.call nnn) { s with stack := s.stack ++ [s.pc], pc := addressOf nnn, report := .ok }
  | clearScreen : Effect s .clearScreen { s with FB := Framebuffer.clear, report := .ok }
  | draw (x y : RegIdx) (n : Fin 16) (x0 y0 : Nat) (rows : List Byte) (vf : Byte) :
      Effect s (.draw x y n)
        { s with FB := (drawSprite s.cfg s.q x0 y0 rows s.FB).1, V := s.V.set VF vf, report := .ok }
  | setDelay (x : RegIdx) : Effect s (.setDelay x) { s with DT := s.reg x, report := .ok }
  | setSound (x : RegIdx) : Effect s (.setSound x) { s with ST := s.reg x, report := .ok }
  | waitKeyPress (x : RegIdx) : Effect s (.waitKeyPress x) { s with wait := some x, report := .ok }
  | store {i : Instr} (bs : List Byte) (p : Word) (hi : (∃ x, i = .splitNumber x) ∨ ∃ x, i = .registerDump x)
      (hfits : s.I.toNat + bs.length ≤ memSize) (hp : p ≠ s.I → mayMovePointer s.q i) :
      Effect s i { s with mem := s.mem.writeBytes s.cfg s.I.toNat bs, I := p, report := .ok }
  | load (x : RegIdx) (vs : Vector Byte 16) (p : Word) (hvs : ∀ k : RegIdx, x.val < k.val → vs[k] = s.V[k])
      (hp : p ≠ s.I → s.q.memSetsPointer = true) :
      Effect s (.registerLoad x) { s with V := vs, I := p, report := .ok }
  | error {i : Instr} (e : StepError) : Effect s i { s with report := .err e }
  | fault {i : Instr} (f : FaultReason) (hi : mayFault i) : Effect s i { s with fault := some f, report := .fault f }

/-! ### The effects of the shared endings -/

section
variable {s : State} {i : Instr}

theorem Effect.of_skipWhen (c : Bool) : Effect s i { s.skipWhen c with report := .ok } := by
  cases c with
  | true => exact .jump (s.pc + 2) (.inr (.inl rfl))
  | false => exact .jump s.pc (.inl rfl)

theorem ne_of_not_mayWriteReg {q : Quirks} {k x : RegIdx} (hk : ¬mayWriteReg q i k) (hx : mayWriteReg q i x) : k ≠ x := by
  rintro rfl
  exact hk hx

theorem Effect.of_setReg {x : RegIdx} (b : Byte) (hx : mayWriteReg s.q i x) :
    Effect s i { s.setReg x b with report := .ok } :=
  .regs (s.V.set x b) fun k hk => (getElem_set_reg s.V x k b).trans (if_neg (ne_of_not_mayWriteReg hk hx))

theorem Effect.of_writeRF {x : RegIdx} (r f : Byte) (hx : mayWriteReg s.q i x) (hF : mayWriteReg s.q i VF) :
    Effect s i { s.writeRF x r f with report := .ok } := by
  rw [State.writeRF_eq_with_V]
  refine .regs _ fun k hk => ?_
  rw [State.writeRF_reg, if_neg (ne_of_not_mayWriteReg hk hF), if_neg (ne_of_not_mayWriteReg hk hx)]

/-- Under the quirk `bitwise_write` writes the flag too. -/
theorem Effect.of_bitwiseWrite {x : RegIdx} (r : Byte) (hx : mayWriteReg s.q i x)
    (hF : s.q.flagReset = true → mayWriteReg s.q i VF) : Effect s i { s.bitwiseWrite x r with report := .ok } := by
  unfold State.bitwiseWrite
  split
  next hquirk => exact .of_writeRF r 0 hx (hF hquirk)
  next => exact .of_setReg r hx

end

theorem State.stepPointer_ne {x : RegIdx} {s : State} (h : (s.stepPointer x).I ≠ s.I) : s.q.memSetsPointer = true := by
  rw [State.stepPointer_I] at h
  by_contra hquirk
  exact h (if_neg hquirk)

/-- Everything an instruction can do. The arms that check first are split into the two outcomes of the check. -/
theorem effect_of_exec {i : Instr} {s t : State} (h : exec i s = .next t) : Effect s i t := by
  cases i with
  | clearScreen => cases h; exact .clearScreen
  | goto nnn => cases h; exact .jump _ (.inr (.inr (by rw [State.setPc_pc, addressOf_toNat]; omega)))
  | relativeJump nnn => cases h; exact .jump _ (.inr (.inr (by rw [State.setPc_pc, addressOf_add_wordOf_toNat]; omega)))
  | skipIfEqualConst | skipIfNotEqualConst | skipIfEqualReg | skipIfNotEqualReg => cases h; exact .of_skipWhen _
  | setConst | addConst | random | mathAssign | getDelay => cases h; exact .of_setReg _ rfl
  | mathOr | mathAnd | mathXor =>
    cases h; exact .of_bitwiseWrite _ (.inl rfl) fun hquirk => .inr ⟨hquirk, rfl⟩
  | mathAdd | mathSubtract | mathDifference | mathShiftRight | mathShiftLeft =>
    cases h; exact .of_writeRF _ _ (.inl rfl) (.inr rfl)
  | setPointer | addPointer => cases h; exact .pointer _ trivial
  | setDelay x => cases h; exact .setDelay x
  | setSound x => cases h; exact .setSound x
  | waitKeyPress x => cases h; exact .waitKeyPress x
  | mathUnknown | undefinedZero | undefinedKey | undefinedMisc => cases h; exact .error _
  | ret =>
    rcases List.eq_nil_or_concat s.stack with hempty | ⟨below, v, hsnoc⟩
    · cases (exec_ret_of_empty hempty).symm.trans h; exact .retEmpty hempty
    · rw [List.concat_eq_append] at hsnoc
      cases (exec_ret_of_snoc hsnoc).symm.trans h; exact .ret below v hsnoc
  | call nnn =>
    by_cases hfull : s.stack.length = s.cfg.stackDepth
    · cases (exec_call_of_full nnn hfull).symm.trans h; exact .fault _ trivial
    · cases (exec_call_of_room nnn hfull).symm.trans h; exact .call nnn hfull
  | draw x y n =>
    by_cases hfits : n.val = 0 ∨ s.I.toNat + n.val ≤ memSize
    · cases (exec_draw_of_fits x y hfits).symm.trans h; exact .draw x y n _ _ _ _
    · cases (exec_draw_of_beyond x y (by omega) (by omega)).symm.trans h; exact .fault _ trivial
  | keyPressed x =>
    cases hkey : keyCode s.V[x] with
    | none => cases (onlyRecords_keyPressed hkey).symm.trans h; exact .fault _ trivial
    | some k => cases (exec_keyPressed_of_keyCode hkey).symm.trans h; exact .of_skipWhen _
  | keyNotPressed x =>
    cases hkey : keyCode s.V[x] with
    | none => cases (onlyRecords_keyNotPressed hkey).symm.trans h; exact .fault _ trivial
    | some k => cases (exec_keyNotPressed_of_keyCode hkey).symm.trans h; exact .of_skipWhen _
  | fontGlyph x =>
    by_cases hbeyond : 15 < s.V[x].toNat
    · cases (exec_fontGlyph_of_beyond hbeyond).symm.trans h; exact .fault _ trivial
    · cases (exec_fontGlyph_of_digit (Nat.not_lt.1 hbeyond)).symm.trans h; exact .pointer _ trivial
  | splitNumber x =>
    by_cases hfits : s.I.toNat + 3 ≤ memSize
    · cases (exec_splitNumber_of_fits x hfits).symm.trans h
      exact .store _ s.I (.inl ⟨x, rfl⟩) hfits fun hne => absurd rfl hne
    · cases (exec_splitNumber_of_beyond x (by omega)).symm.trans h; exact .fault _ trivial
  | registerDump x =>
    by_cases hfits : s.I.toNat + (x.val + 1) ≤ memSize
    · rw [exec_registerDump_of_fits hfits, State.stepPointer_eq_with_I] at h
      cases h
      exact .store _ _ (.inr ⟨x, rfl⟩) (by rwa [registersUpTo_length]) State.stepPointer_ne
    · cases (exec_registerDump_of_beyond (by omega)).symm.trans h; exact .fault _ trivial
  | registerLoad x =>
    by_cases hfits : s.I.toNat + (x.val + 1) ≤ memSize
    · rw [exec_registerLoad_of_fits hfits, State.stepPointer_eq_with_I] at h
      cases h
      refine .load x _ _ (fun k hk => ?_) State.stepPointer_ne
      exact (getElem_writeRegs_readBytes x k s).trans (if_neg (Nat.not_le.2 hk))
    · cases (exec_registerLoad_of_beyond (by omega)).symm.trans h; exact .fault _ trivial

end Sys2Proof.Machine
end

section
/-! ## The invariant (spec/10_state.md R42) -/

namespace Sys2Proof.Machine

/-! ### What an instruction keeps -/

/-- From inside the store the advance of `pc` does not wrap. -/
theorem word_add_two_toNat {p : Word} (h : p.toNat ≤ memSize) : (p + 2).toNat = p.toNat + 2 := by
  have hstore : p.toNat ≤ 4096 := h
  have htwo : (2 : Word).toNat = 2 := rfl
  rw [BitVec.toNat_add, htwo]; omega

/-- An instruction keeps the invariant when it starts where a step call starts it: running, with no wait pending, and `pc`
past a word of the store. -/
theorem Effect.keeps_inv {s t : State} {i : Instr} (he : Effect s i t) (hinv : s.Inv) (hpc : s.pc.toNat ≤ memSize)
    (heven : s.pc.toNat % 2 = 0) (hrunning : s.running = true) (hwait : s.wait = none) : t.Inv := by
  have hstore : s.pc.toNat ≤ 4096 := hpc
  obtain ⟨hwidth, -, hheight, -⟩ := of_decide_eq_true hinv.cfg_wf
  cases he with
  | regs | pointer | setDelay | setSound | load | error | fault => exact { hinv with }
  | jump p hp =>
    have hbound : p.toNat ≤ 0x10FE := by
      rcases hp with rfl | rfl | hp
      · omega
      · rw [word_add_two_toNat hpc]; omega
      · exact hp
    exact { hinv with pc_bound := hbound }
  | ret below v hsnoc =>
    have hentries := hinv.stack_entries
    have hlen := hinv.stack_bound
    rw [hsnoc] at hentries hlen
    rw [List.length_append] at hlen
    have hv : v.toNat ≤ 4096 := (hentries v (by simp)).1
    exact { hinv with
      stack_bound := by show below.length ≤ s.cfg.stackDepth; omega
      stack_entries := fun w hw => hentries w (List.mem_append_left _ hw)
      pc_bound := by show v.toNat ≤ 0x10FE; omega }
  | retEmpty => exact { hinv with wait_running := fun h => by simp [hwait] at h }
  | call nnn hroom =>
    have hlen := hinv.stack_bound
    refine { hinv with stack_bound := ?_, stack_entries := fun v hv => ?_, pc_bound := ?_ }
    · show (s.stack ++ [s.pc]).length ≤ s.cfg.stackDepth
      rw [List.length_append, List.length_singleton]; omega
    · rcases List.mem_append.1 hv with hv | hv
      · exact hinv.stack_entries v hv
      · rw [List.mem_singleton.1 hv]; exact ⟨hpc, heven⟩
    · show (addressOf nnn).toNat ≤ 0x10FE
      rw [addressOf_toNat]; omega
  | clearScreen => exact { hinv with fb_wf := ⟨.nil, nofun⟩ }
  | draw x y n x0 y0 rows vf => exact { hinv with fb_wf := drawSprite_wf s.q x0 y0 rows hwidth hheight hinv.fb_wf }
  | waitKeyPress => exact { hinv with wait_running := fun _ => hrunning }
  | store bs p hi hfits hp => exact { hinv with mem_wf := Memory.writeBytes_wf bs hfits hinv.mem_wf }

/-! ### What the rest of a step call keeps -/

theorem State.Inv.of_calls {s s0 : State} {inp : StepInput} (hinv : s.Inv) (h : s.calls inp s0) : s0.Inv := by
  rw [calls_eq h]
  exact { hinv with }

theorem State.Inv.advanceTimers {s : State} (hinv : s.Inv) (now : Nat) : (s.advanceTimers now).Inv :=
  { hinv with tacc_bound := s.carry_lt now }

/-- `pc` past a word that could be fetched: inside the store or right behind it, and even (R104, R105). -/
theorem advancePc_of_fetch {s : State} {op : Word} (h : s.fetch = .ok op) :
    s.advancePc.pc.toNat ≤ memSize ∧ s.advancePc.pc.toNat % 2 = 0 := by
  obtain ⟨heven, hinside⟩ := fetch_ok_bounds h
  rw [State.advancePc_pc, word_add_two_toNat (by omega)]
  exact ⟨hinside, by omega⟩

theorem callStep_keeps_inv {s t : State} (hinv : s.Inv) (h : callStep s = .next t) : t.Inv := by
  rcases callStep_cases s with ⟨f, -, hc⟩ | ⟨-, -, hc⟩ | ⟨-, -, -, hc⟩ | ⟨-, hrunning, -, b, rfl, hlive⟩
  · cases hc.symm.trans h
  · cases hc.symm.trans h; exact { hinv with }
  · cases hc.symm.trans h
  · have hbegun := hinv.advanceTimers s.inp.now
    rcases hlive with ⟨r, -, hc⟩ | ⟨-, f, -, hc⟩ | ⟨-, op, -, -, hc⟩ | ⟨hwait, op, hfetch, -, hc⟩
    · cases hc.symm.trans h; exact { hbegun with }
    · cases hc.symm.trans h; exact { hbegun with }
    · cases hc.symm.trans h; exact { hbegun with }
    · obtain ⟨hpc, heven⟩ := advancePc_of_fetch (s := s.advanceTimers s.inp.now) hfetch
      have hadvanced : (s.advanceTimers s.inp.now).advancePc.Inv :=
        { hbegun with pc_bound := hpc.trans (by decide) }
      exact (effect_of_exec (hc.symm.trans h)).keeps_inv hadvanced hpc heven hrunning hwait

/-! ### What construction meets and the host's calls keep -/

theorem construct_inv {cfg : Config} (q : Quirks) (now : Nat) (hwf : cfg.wf = true) : (State.construct cfg q now).Inv := by
  obtain ⟨-, -, -, -, -, -, hload, -⟩ := of_decide_eq_true hwf
  have hstore : cfg.loadOffset + 2 ≤ 4096 := hload
  exact {
    cfg_wf := hwf
    stack_bound := Nat.zero_le _
    stack_entries := nofun
    tacc_bound := Nat.succ_pos _
    wait_running := fun _ => rfl
    pc_bound := by rw [State.construct, BitVec.toNat_ofNat]; omega
    mem_wf := ⟨.nil, nofun⟩
    fb_wf := ⟨.nil, nofun⟩ }

theorem State.Inv.press {s : State} (hinv : s.Inv) (k : Nat) : (s.press k).Inv := by
  unfold State.press
  split
  next => exact { hinv with }
  next j _ =>
    rw [State.completeWait_eq_with_V]
    exact { hinv with wait_running := nofun }

theorem State.Inv.release {s : State} (hinv : s.Inv) (k : Nat) : (s.release k).Inv := by
  unfold State.release
  split <;> exact { hinv with }

theorem State.Inv.load {s : State} (hinv : s.Inv) (bs : List Byte) : (s.load bs).Inv := by
  unfold State.load
  split
  next => exact { hinv with }
  next hfits => exact { hinv with mem_wf := Memory.writeBytes_wf bs (Nat.not_lt.1 hfits) hinv.mem_wf }

/-- Settles O12: a step call ends a phase or runs an instruction on a state that meets the invariant, and each host call
writes fields whose part of the invariant it keeps. -/
theorem stepKeepsInv : Obligations.StepKeepsInv := by
  intro s t hinv h
  have hrest (rest : List HostEvent) : ({ s with script := rest } : State).Inv := { hinv with }
  rcases step_cases s with ⟨inp, s0, hcalls, hs⟩ | ⟨k, rest, -, hs⟩ | ⟨k, rest, -, hs⟩ | ⟨q, rest, -, hs⟩ |
    ⟨bs, rest, -, hs⟩ | ⟨now, rest, -, hs⟩
  · exact callStep_keeps_inv (hinv.of_calls hcalls) (hs.symm.trans h)
  all_goals cases hs.symm.trans h
  · exact (hrest rest).press k
  · exact (hrest rest).release k
  · exact { hinv with }
  · exact (hrest rest).load bs
  · exact { construct_inv s.q now hinv.cfg_wf with }

/-- Settles O13: construction starts with empty lists and `pc` at the load offset, which legal parameters keep in the
store; the parameters of `State.reset` are legal. -/
theorem constructionMeetsInv : Obligations.ConstructionMeetsInv :=
  ⟨fun _ q now => construct_inv q now, construct_inv Quirks.allClear 0 (by decide)⟩

theorem Reachable.inv {s : State} (h : Reachable s) : s.Inv := by
  induction h with
  | construct cfg q now hwf => exact construct_inv q now hwf
  | step s t _ hstep ih => exact stepKeepsInv s t ih hstep
  | schedule s events _ ih => exact { ih with }

/-- Settles O14: R42's facts are parts of the invariant, but for the timers, whose bound is that of a byte. -/
theorem reachableStatesMeetR42 : Obligations.ReachableStatesMeetR42 := fun s hreach =>
  have hinv := hreach.inv
  ⟨hinv.stack_bound, Nat.le_of_lt_succ s.DT.isLt, Nat.le_of_lt_succ s.ST.isLt, hinv.tacc_bound,
    fun _ hwait => hinv.wait_running (hwait ▸ rfl), hinv.pc_bound⟩

end Sys2Proof.Machine
end

section
/-! ## What each part of the state is changed by (spec/10_state.md R22, R23, R27, R31, R36 to R38) -/

namespace Sys2Proof.Machine

open Sys2Proof.Claims

section
variable {s t : State} {i : Instr} (he : Effect s i t)
include he

theorem Effect.reg_of_not_mayWrite {k : RegIdx} (hk : ¬mayWriteReg s.q i k) : t.V[k] = s.V[k] := by
  cases he with
  | regs vs hvs => exact hvs k hk
  | draw => exact (getElem_set_reg ..).trans (if_neg hk)
  | load x vs p hvs => exact hvs k (Nat.not_le.1 hk)
  | _ => rfl

theorem Effect.mayMovePointer_of_ne (h : t.I ≠ s.I) : mayMovePointer s.q i := by
  cases he with
  | pointer a hi => exact hi
  | store bs p hi hfits hp => exact hp h
  | load x vs p hvs hp => exact hp h
  | _ => exact absurd rfl h

theorem Effect.of_stack_ne (h : t.stack ≠ s.stack) : i = .ret ∨ ∃ nnn, i = .call nnn := by
  cases he with
  | ret => exact .inl rfl
  | call nnn => exact .inr ⟨nnn, rfl⟩
  | _ => exact absurd rfl h

theorem Effect.of_mem_ne (h : t.mem ≠ s.mem) : (∃ x, i = .splitNumber x) ∨ ∃ x, i = .registerDump x := by
  cases he with
  | store bs p hi => exact hi
  | _ => exact absurd rfl h

theorem Effect.of_FB_ne (h : t.FB ≠ s.FB) : i = .clearScreen ∨ ∃ x y n, i = .draw x y n := by
  cases he with
  | clearScreen => exact .inl rfl
  | draw x y n => exact .inr ⟨x, y, n, rfl⟩
  | _ => exact absurd rfl h

theorem Effect.of_DT_ne (h : t.DT ≠ s.DT) : ∃ x, i = .setDelay x := by
  cases he with
  | setDelay x => exact ⟨x, rfl⟩
  | _ => exact absurd rfl h

theorem Effect.of_ST_ne (h : t.ST ≠ s.ST) : ∃ x, i = .setSound x := by
  cases he with
  | setSound x => exact ⟨x, rfl⟩
  | _ => exact absurd rfl h

theorem Effect.of_wait_ne (h : t.wait ≠ s.wait) : ∃ x, i = .waitKeyPress x := by
  cases he with
  | waitKeyPress x => exact ⟨x, rfl⟩
  | _ => exact absurd rfl h

/-- `running` is cleared by a Return on an empty stack alone (R37, R121). -/
theorem Effect.of_running_ne (h : t.running ≠ s.running) :
    i = .ret ∧ s.stack = [] ∧ t.report = .err .invalidState := by
  cases he with
  | retEmpty hempty => exact ⟨rfl, hempty, rfl⟩
  | _ => exact absurd rfl h

theorem Effect.mayFault_of_ne (h : t.fault ≠ s.fault) : mayFault i := by
  cases he with
  | fault f hi => exact hi
  | _ => exact absurd rfl h

end

/-! ### The two lists of instructions, in the claims' spelling -/

theorem mayMovePointer_iff (q : Quirks) (i : Instr) :
    mayMovePointer q i ↔ (∃ nnn, i = .setPointer nnn) ∨ (∃ x, i = .addPointer x) ∨ (∃ x, i = .fontGlyph x) ∨
      (q.memSetsPointer = true ∧ ((∃ x, i = .registerDump x) ∨ ∃ x, i = .registerLoad x)) := by
  cases i <;> simp [mayMovePointer]

theorem mayFault_iff (i : Instr) :
    mayFault i ↔ (∃ nnn, i = .call nnn) ∨ (∃ x y n, i = .draw x y n) ∨ (∃ x, i = .keyPressed x) ∨
      (∃ x, i = .keyNotPressed x) ∨ (∃ x, i = .fontGlyph x) ∨ (∃ x, i = .splitNumber x) ∨
      (∃ x, i = .registerDump x) ∨ ∃ x, i = .registerLoad x := by
  cases i <;> simp [mayFault]

/-- A press writes no register but the one waited on (R207). -/
theorem State.press_reg_of_not_waited {s : State} {j : RegIdx} (h : s.wait ≠ some j) (k : Nat) :
    (s.press k).V[j] = s.V[j] := by
  unfold State.press
  split
  next => rfl
  next => exact (State.completeWait_reg _ _ j).trans (if_neg h)

/-- Settles O17: of the effects the register writers alone touch the registers, within their lists. -/
theorem onlyListedRegistersAreWritten : Obligations.OnlyListedRegistersAreWritten :=
  ⟨fun _ _ _ h _ hk => (effect_of_exec h).reg_of_not_mayWrite hk, fun _ k _ hwait => State.press_reg_of_not_waited hwait k⟩

/-- Settles O18: the effects that change a field name the instructions that may, and the frame of every instruction holds
the fields that none changes. -/
theorem instructionsWriteOnlyTheirState : Obligations.InstructionsWriteOnlyTheirState := by
  intro i s t h
  have he := effect_of_exec h
  have hframe := exec_framed i s t h
  exact ⟨fun hI => (mayMovePointer_iff s.q i).1 (he.mayMovePointer_of_ne hI), he.of_stack_ne, he.of_mem_ne, he.of_FB_ne,
    he.of_DT_ne, he.of_ST_ne, he.of_wait_ne, fun hrunning => (he.of_running_ne hrunning).1,
    fun hfault => (mayFault_iff i).1 (he.mayFault_of_ne hfault), hframe.cfg, hframe.q, hframe.key, hframe.tacc,
    hframe.tlast, hframe.inp, hframe.script, hframe.drawn⟩

end Sys2Proof.Machine
end

section
/-! ## What stops and what ends a wait (spec/10_state.md R37, R38; spec/45_keypad.md R207; spec/60_exceptions.md R261) -/

namespace Sys2Proof.Machine

/-! ### A step call on a stopped or waiting machine, and the one instruction that stops a running one -/

theorem callStep_of_fault {s : State} {f : FaultReason} (h : s.fault = some f) : callStep s = .fault (.stuck f) := by
  rw [callStep, h]

theorem callStep_of_halted {s : State} (hfault : s.fault = none) (hrunning : s.running = false) :
    callStep s = .next { s with report := .halted } := by
  simp [callStep, hfault, hrunning]

theorem callStep_of_waiting {s : State} {r : RegIdx} (hfault : s.fault = none) (hrunning : s.running = true)
    (htime : s.tlast ≤ s.inp.now) (hwait : s.wait = some r) :
    callStep s = .next { s.advanceTimers s.inp.now with report := .waiting } := by
  simp [callStep, hfault, hrunning, Nat.not_lt.2 htime, runUnlessWaiting, hwait]

theorem callStep_keeps_wait {s t : State} {r : RegIdx} (hwait : s.wait = some r) (h : callStep s = .next t) :
    t.wait = some r := by
  rcases callStep_cases s with ⟨f, -, hc⟩ | ⟨-, -, hc⟩ | ⟨-, -, -, hc⟩ | ⟨-, -, -, b, rfl, hlive⟩
  · cases hc.symm.trans h
  · cases hc.symm.trans h; exact hwait
  · cases hc.symm.trans h
  · rcases hlive with ⟨r', -, hc⟩ | ⟨hnone, -⟩ | ⟨hnone, -⟩ | ⟨hnone, -⟩
    · cases hc.symm.trans h; exact hwait
    all_goals rw [hwait] at hnone; cases hnone

/-- The event from `s` to `t` ran a Return on an empty stack (R121). -/
def EmptyReturn (s t : State) : Prop :=
  s.stack = [] ∧ (∃ op, s.fetch = .ok op ∧ decode op = .ret) ∧ t.report = .err .invalidState

/-- A step call never sets `running`, and clears it by running a Return on an empty stack (R37). -/
theorem callStep_running {s t : State} (h : callStep s = .next t) :
    t.running = s.running ∨ (t.running = false ∧ EmptyReturn s t) := by
  rcases callStep_cases s with ⟨f, -, hc⟩ | ⟨-, -, hc⟩ | ⟨-, -, -, hc⟩ | ⟨-, hrunning, -, b, rfl, hlive⟩
  · cases hc.symm.trans h
  · cases hc.symm.trans h; exact .inl rfl
  · cases hc.symm.trans h
  · rcases hlive with ⟨r, -, hc⟩ | ⟨-, f, -, hc⟩ | ⟨-, op, -, -, hc⟩ | ⟨-, op, hfetch, -, hc⟩
    · cases hc.symm.trans h; exact .inl rfl
    · cases hc.symm.trans h; exact .inl rfl
    · cases hc.symm.trans h; exact .inl rfl
    · refine or_iff_not_imp_left.2 fun hne => ?_
      obtain ⟨hret, hempty, hreport⟩ := (effect_of_exec (hc.symm.trans h)).of_running_ne hne
      exact ⟨by simpa [hrunning] using hne, hempty, ⟨op, hfetch, hret⟩, hreport⟩

/-! ### The fields a press, a release and a load can change -/

theorem State.press_eq_with (k : Nat) (s : State) :
    s.press k =
      { s with
        wait := (s.press k).wait
        key := (s.press k).key
        V := (s.press k).V
        report := (s.press k).report } := by
  unfold State.press
  split
  next => rfl
  next => rw [State.completeWait_eq_with_V]

theorem State.release_eq_with (k : Nat) (s : State) :
    s.release k = { s with key := (s.release k).key, report := (s.release k).report } := by
  unfold State.release
  split <;> rfl

theorem State.load_eq_with (bs : List Byte) (s : State) :
    s.load bs = { s with mem := (s.load bs).mem, report := (s.load bs).report } := by
  unfold State.load
  split <;> rfl

/-- Settles O7: step calls, releases, quirk writes, loads and rejected presses keep the marker, an accepted press clears it. -/
theorem keyWaitEndsOnlyByPressOrReset : Obligations.KeyWaitEndsOnlyByPressOrReset := by
  intro s t r hwait h hne
  rcases step_cases s with ⟨inp, s0, hcalls, hs⟩ | ⟨k, rest, hev, hs⟩ | ⟨k, rest, -, hs⟩ | ⟨q, rest, -, hs⟩ |
    ⟨bs, rest, -, hs⟩ | ⟨now, rest, hev, hs⟩
  · have hwait0 : s0.wait = some r := by rw [calls_eq hcalls]; exact hwait
    exact absurd (callStep_keeps_wait hwait0 (hs.symm.trans h)) hne
  · rcases Nat.lt_or_ge 15 k with hbeyond | hkey
    · rw [State.press_of_beyond hbeyond] at hs
      cases hs.symm.trans h
      exact absurd hwait hne
    · refine .inl ⟨k, rest, hkey, hev, ?_⟩
      have haccepted := State.press_key ⟨k, Nat.lt_succ_of_le hkey⟩ { s with script := rest }
      rw [haccepted, State.completeWait_eq_with_V] at hs
      cases hs.symm.trans h
      rfl
  · rw [State.release_eq_with] at hs
    cases hs.symm.trans h
    exact absurd hwait hne
  · cases hs.symm.trans h
    exact absurd hwait hne
  · rw [State.load_eq_with] at hs
    cases hs.symm.trans h
    exact absurd hwait hne
  · exact .inr ⟨now, rest, hev⟩

/-- What one event does to `running` and to a recorded fault, unless it is a reset. -/
theorem step_stop_cases {s t : State} (h : step s = .next t) :
    (∃ now rest, s.script = .reset now :: rest) ∨
    ((∀ f, s.fault = some f → t.fault = some f) ∧
      (t.running = s.running ∨ (t.running = false ∧ EmptyReturn s t))) := by
  rcases step_cases s with ⟨inp, s0, hcalls, hs⟩ | ⟨k, rest, -, hs⟩ | ⟨k, rest, -, hs⟩ | ⟨q, rest, -, hs⟩ |
    ⟨bs, rest, -, hs⟩ | ⟨now, rest, hev, hs⟩
  · rw [calls_eq hcalls] at hs
    have hcall := hs.symm.trans h
    have hrunning := callStep_running hcall
    refine .inr ⟨fun f hf => ?_, hrunning⟩
    have hstuck := hcall.symm.trans (callStep_of_fault hf)
    cases hstuck
  · rw [State.press_eq_with] at hs
    cases hs.symm.trans h
    exact .inr ⟨fun _ => id, .inl rfl⟩
  · rw [State.release_eq_with] at hs
    cases hs.symm.trans h
    exact .inr ⟨fun _ => id, .inl rfl⟩
  · cases hs.symm.trans h
    exact .inr ⟨fun _ => id, .inl rfl⟩
  · rw [State.load_eq_with] at hs
    cases hs.symm.trans h
    exact .inr ⟨fun _ => id, .inl rfl⟩
  · exact .inl ⟨now, rest, hev⟩

/-- Settles O15: a reset allows anything, and every other event keeps a recorded fault, and `running` but for the one
Return. -/
theorem stoppedStaysStoppedUntilReset : Obligations.StoppedStaysStoppedUntilReset := by
  intro s t h
  rcases step_stop_cases h with hreset | ⟨hfault, hrunning⟩
  · obtain ⟨now, rest, hscript⟩ := hreset
    have hs : step s = .next ({ s with script := rest }.resetAt now) := step_of_script hscript
    cases hs.symm.trans h
    exact ⟨fun _ _ => .inr ⟨now, rest, hscript⟩, fun _ => .inr ⟨now, rest, hscript⟩, nofun⟩
  · refine ⟨fun f hf => .inl (hfault f hf), fun hstopped => .inl ?_, fun hlive hstopped => ?_⟩
    · rcases hrunning with hkept | ⟨hcleared, -⟩
      · exact hkept.trans hstopped
      · exact hcleared
    · rcases hrunning with hkept | ⟨-, hret⟩
      · rw [hkept, hlive] at hstopped; cases hstopped
      · exact hret

end Sys2Proof.Machine
end

section
/-! ## What no instruction reads (spec/10_state.md R31, R32, R37, R40; spec/40_execution_cycle.md R101) -/

namespace Sys2Proof.Machine

/-- The part of the state that no instruction reads, but for `inp.rand`, which Random reads. -/
structure Hidden where
  ST : Byte
  inp : StepInput
  tacc : Nat
  tlast : Nat
  running : Bool
  wait : Option RegIdx
  fault : Option FaultReason

def State.hidden (s : State) : Hidden where
  ST := s.ST
  inp := s.inp
  tacc := s.tacc
  tlast := s.tlast
  running := s.running
  wait := s.wait
  fault := s.fault

/-- `s` with another hidden part. -/
def State.withHidden (s : State) (u : Hidden) : State :=
  { s with
    ST := u.ST
    inp := u.inp
    tacc := u.tacc
    tlast := u.tlast
    running := u.running
    wait := u.wait
    fault := u.fault }

/-- The hidden part `u` after `i`, which began with the registers `v` and reported `r`: a function of these alone. -/
def Hidden.after (u : Hidden) (i : Instr) (v : Vector Byte 16) (r : Report) : Hidden where
  ST := match i with | .setSound x => v[x] | _ => u.ST
  inp := u.inp
  tacc := u.tacc
  tlast := u.tlast
  running := match r with | .err .invalidState => false | _ => u.running
  wait := match i with | .waitKeyPress x => some x | _ => u.wait
  fault := match r with | .fault f => some f | _ => u.fault

/-! ### The operations with a case of their own act on the visible part alone -/

section
variable (s : State) (u : Hidden)

@[simp] theorem State.withHidden_cfg : (s.withHidden u).cfg = s.cfg := rfl
@[simp] theorem State.withHidden_q : (s.withHidden u).q = s.q := rfl

theorem State.skipWhen_withHidden (c : Bool) : (s.withHidden u).skipWhen c = (s.skipWhen c).withHidden u := by
  cases c <;> rfl

theorem State.writeRF_withHidden (x : RegIdx) (r f : Byte) :
    (s.withHidden u).writeRF x r f = (s.writeRF x r f).withHidden u := by
  unfold State.writeRF
  rw [State.withHidden_cfg]
  split <;> rfl

theorem State.bitwiseWrite_withHidden (x : RegIdx) (r : Byte) :
    (s.withHidden u).bitwiseWrite x r = (s.bitwiseWrite x r).withHidden u := by
  unfold State.bitwiseWrite
  rw [State.withHidden_q, State.writeRF_withHidden]
  split <;> rfl

theorem State.stepPointer_withHidden (x : RegIdx) : (s.withHidden u).stepPointer x = (s.stepPointer x).withHidden u := by
  unfold State.stepPointer
  rw [State.withHidden_q]
  split <;> rfl

end

/-- Whatever the hidden part is, `i` leads to the same visible state `t` and makes of the hidden part what `Hidden.after` says:
the outcome of every check, and what is written, depends on `s` alone. -/
theorem exec_withHidden (i : Instr) (s : State) :
    ∃ t : State, ∀ u : Hidden, ((∃ x nn, i = .random x nn) → u.inp.rand = s.inp.rand) →
      exec i (s.withHidden u) = .next (t.withHidden (u.after i s.V t.report)) := by
  obtain ⟨t, ht⟩ := exec_next i s
  refine ⟨t, fun u hrand => ?_⟩
  cases i with
  | clearScreen | goto | relativeJump | setConst | addConst | mathAssign | getDelay | setPointer | addPointer | setDelay
  | setSound | waitKeyPress | mathUnknown | undefinedZero | undefinedKey | undefinedMisc => cases ht; rfl
  | random x nn =>
    cases ht
    have hdrawn : (s.withHidden u).inp.rand = s.inp.rand := hrand ⟨x, nn, rfl⟩
    rw [exec, execRandom, hdrawn]; rfl
  | skipIfEqualConst | skipIfNotEqualConst | skipIfEqualReg | skipIfNotEqualReg =>
    cases ht
    exact congrArg finish (State.skipWhen_withHidden s u _)
  | mathOr | mathAnd | mathXor =>
    cases ht
    exact congrArg finish (State.bitwiseWrite_withHidden s u _ _)
  | mathAdd | mathSubtract | mathDifference | mathShiftRight | mathShiftLeft =>
    cases ht
    exact congrArg finish (State.writeRF_withHidden s u _ _ _)
  | ret =>
    rcases List.eq_nil_or_concat s.stack with hempty | ⟨below, v, hsnoc⟩
    · cases (exec_ret_of_empty hempty).symm.trans ht
      exact exec_ret_of_empty hempty
    · rw [List.concat_eq_append] at hsnoc
      cases (exec_ret_of_snoc hsnoc).symm.trans ht
      exact exec_ret_of_snoc hsnoc
  | call nnn =>
    by_cases hfull : s.stack.length = s.cfg.stackDepth
    · cases (exec_call_of_full nnn hfull).symm.trans ht
      exact exec_call_of_full nnn hfull
    · cases (exec_call_of_room nnn hfull).symm.trans ht
      exact exec_call_of_room nnn hfull
  | draw x y n =>
    by_cases hfits : n.val = 0 ∨ s.I.toNat + n.val ≤ memSize
    · cases (exec_draw_of_fits x y hfits).symm.trans ht
      exact exec_draw_of_fits x y hfits
    · have hbeyond : n.val ≠ 0 ∧ memSize < s.I.toNat + n.val := by omega
      cases (exec_draw_of_beyond x y hbeyond.1 hbeyond.2).symm.trans ht
      exact exec_draw_of_beyond x y hbeyond.1 hbeyond.2
  | keyPressed x =>
    cases hkey : keyCode s.V[x] with
    | none =>
      cases (onlyRecords_keyPressed hkey).symm.trans ht
      exact onlyRecords_keyPressed hkey
    | some k =>
      cases (exec_keyPressed_of_keyCode hkey).symm.trans ht
      have hother : exec (.keyPressed x) (s.withHidden u) = finish ((s.withHidden u).skipWhen s.key[k]) :=
        exec_keyPressed_of_keyCode hkey
      rw [hother, State.skipWhen_withHidden]; rfl
  | keyNotPressed x =>
    cases hkey : keyCode s.V[x] with
    | none =>
      cases (onlyRecords_keyNotPressed hkey).symm.trans ht
      exact onlyRecords_keyNotPressed hkey
    | some k =>
      cases (exec_keyNotPressed_of_keyCode hkey).symm.trans ht
      have hother : exec (.keyNotPressed x) (s.withHidden u) = finish ((s.withHidden u).skipWhen (!s.key[k])) :=
        exec_keyNotPressed_of_keyCode hkey
      rw [hother, State.skipWhen_withHidden]; rfl
  | fontGlyph x =>
    by_cases hbeyond : 15 < s.V[x].toNat
    · cases (exec_fontGlyph_of_beyond hbeyond).symm.trans ht
      exact exec_fontGlyph_of_beyond hbeyond
    · cases (exec_fontGlyph_of_digit (Nat.not_lt.1 hbeyond)).symm.trans ht
      exact exec_fontGlyph_of_digit (Nat.not_lt.1 hbeyond)
  | splitNumber x =>
    rcases Nat.lt_or_ge memSize (s.I.toNat + 3) with hbeyond | hfits
    · cases (exec_splitNumber_of_beyond x hbeyond).symm.trans ht
      exact exec_splitNumber_of_beyond x hbeyond
    · cases (exec_splitNumber_of_fits x hfits).symm.trans ht
      exact exec_splitNumber_of_fits x hfits
  | registerDump x =>
    rcases Nat.lt_or_ge memSize (s.I.toNat + (x.val + 1)) with hbeyond | hfits
    · cases (exec_registerDump_of_beyond hbeyond).symm.trans ht
      exact exec_registerDump_of_beyond hbeyond
    · cases (exec_registerDump_of_fits hfits).symm.trans ht
      have hother := exec_registerDump_of_fits (s := s.withHidden u) hfits
      exact hother.trans (congrArg finish (State.stepPointer_withHidden { s with mem := _ } u x))
  | registerLoad x =>
    rcases Nat.lt_or_ge memSize (s.I.toNat + (x.val + 1)) with hbeyond | hfits
    · cases (exec_registerLoad_of_beyond hbeyond).symm.trans ht
      exact exec_registerLoad_of_beyond hbeyond
    · cases (exec_registerLoad_of_fits hfits).symm.trans ht
      have hother := exec_registerLoad_of_fits (s := s.withHidden u) hfits
      exact hother.trans (congrArg finish (State.stepPointer_withHidden { s with V := _ } u x))

/-- Settles O19: the sound counter is hidden, and what becomes of it is fixed by SetSound and left by the others. -/
theorem noInstructionReadsSoundTimer : Obligations.NoInstructionReadsSoundTimer := by
  intro i s b
  obtain ⟨t, ht⟩ := exec_withHidden i s
  have hother := ht { s.hidden with ST := b } fun _ => rfl
  refine ⟨_, ht s.hidden fun _ => rfl, ?_, fun hne => hother.trans ?_⟩
  · rintro ⟨x, rfl⟩
    exact hother
  · cases i with
    | setSound x => exact absurd rfl (hne x)
    | _ => rfl

/-- Settles O20: the inputs are hidden but for the byte Random reads, and no instruction writes them. -/
theorem stepInputsReachOnlyRandom : Obligations.StepInputsReachOnlyRandom := by
  intro i s inp hrand
  obtain ⟨t, ht⟩ := exec_withHidden i s
  exact ⟨_, ht s.hidden fun _ => rfl, ht { s.hidden with inp := inp } hrand⟩

/-- Settles O21: the five fields are hidden, and the visible state an instruction leads to is one for all hidden parts. -/
theorem hiddenStateIsUnobservable : Obligations.HiddenStateIsUnobservable := by
  intro i s acc last run w f
  obtain ⟨t, ht⟩ := exec_withHidden i s
  have hown := ht s.hidden fun _ => rfl
  have hother := ht ⟨s.ST, s.inp, acc, last, run, w, f⟩ fun _ => rfl
  refine ⟨_, _, hown, hother, rfl, rfl, rfl, rfl, rfl, rfl, rfl, ?_, rfl⟩
  cases i <;> rfl

end Sys2Proof.Machine
end

section
/-! ## A step call in each mode (spec/40_execution_cycle.md R100 to R103) -/

namespace Sys2Proof.Machine

open Sys2Proof.Claims

theorem wordOfBytes_eq_ofNat (hi lo : Byte) : wordOfBytes hi lo = BitVec.ofNat 16 (hi.toNat * 256 + lo.toNat) :=
  BitVec.eq_of_toNat_eq (by rw [wordOfBytes_toNat, BitVec.toNat_ofNat]; omega)

theorem runInstruction_of_not_holds {s : State} {op : Word} (h : s.fetch = .ok op)
    (hhold : holds (decode op) s = false) : runInstruction s = exec (decode op) s.advancePc := by
  simp [runInstruction, h, hhold]

/-- Settles O4: after the timer advance the fetch reads the word at `pc`, and what is not a Draw, or is not held, is run. -/
theorem stepRunsDecodedInstruction : Obligations.StepRunsDecodedInstruction := by
  rintro s s0 inp hcalls hmode htime heven hinside hi lo rfl rfl i hdecode hvblank
  have hfetch := (begun_fetch hcalls).trans (State.fetch_of_inside heven hinside)
  rw [wordOfBytes_eq_ofNat] at hfetch
  have hnot : holds i (begun s0 inp) = false := by
    rw [← Bool.not_eq_true, holds_iff, begun_q hcalls, begun_inp hcalls]
    rintro ⟨hdraw, hquirk, hblank⟩
    rw [hvblank hdraw hquirk] at hblank
    cases hblank
  subst hdecode
  rw [step_eq_runInstruction_begun hcalls hmode htime, runInstruction_of_not_holds hfetch hnot, ← begun_pc hcalls]
  rfl

/-- Settles O5: a step call looks at the fault first and at `running` next, and at the inputs only after both. -/
theorem stoppedMachineTakesNoStep : Obligations.StoppedMachineTakesNoStep := by
  intro s s0 inp hcalls
  rw [step_of_calls hcalls, calls_eq hcalls]
  exact ⟨fun f hfault => callStep_of_fault hfault, fun hfault hrunning => callStep_of_halted hfault hrunning⟩

/-- Settles O6: a pending wait ends the step call right after the timer advance, which writes none of the fields the mode
is a function of. -/
theorem keyWaitStepAdvancesTimersOnly : Obligations.KeyWaitStepAdvancesTimersOnly := by
  intro s s0 inp hcalls hmode htime
  obtain ⟨hfault, hrunning, r, hwait⟩ := (mode_keyWaiting_iff s).1 hmode
  rw [step_of_calls hcalls, calls_eq hcalls]
  exact ⟨_, callStep_of_waiting hfault hrunning htime hwait, rfl, rfl, rfl,
    (mode_keyWaiting_iff _).2 ⟨hfault, hrunning, r, hwait⟩⟩

end Sys2Proof.Machine
end

section
/-! ## The timer advance in stages (spec/60_exceptions.md R262, R263) -/

namespace Sys2Proof.Machine

/-- Counting down by a number of ticks and then by another is counting down by both at once. -/
theorem countDown_countDown (t : Byte) (m n : Nat) : countDown (countDown t m) n = countDown t (m + n) :=
  BitVec.eq_of_toNat_eq (by simp only [countDown_toNat]; omega)

/-- The fractions of two stages add up, but for the whole ticks the first has taken off. -/
theorem tickFractions_advanceTimers {s : State} {t1 t2 : Nat} (h1 : s.tlast ≤ t1) (h2 : t1 ≤ t2) :
    s.tickFractions t1 / nanosPerSecond * nanosPerSecond + (s.advanceTimers t1).tickFractions t2 = s.tickFractions t2 := by
  have hcarry := s.ticks_add_carry t1
  have hspan : (t1 - s.tlast) * s.cfg.tickRate + (t2 - t1) * s.cfg.tickRate = (t2 - s.tlast) * s.cfg.tickRate := by
    rw [← Nat.add_mul]; congr 1; omega
  have hsecond : (s.advanceTimers t1).tickFractions t2 =
      s.tickFractions t1 % nanosPerSecond + (t2 - t1) * s.cfg.tickRate := rfl
  have hwhole : s.tickFractions t2 = s.tacc + (t2 - s.tlast) * s.cfg.tickRate := rfl
  omega

/-- The whole ticks and the carry of two stages are those of the two at once. -/
theorem ticks_advanceTimers {s : State} {t1 t2 : Nat} (h1 : s.tlast ≤ t1) (h2 : t1 ≤ t2) :
    s.tickFractions t1 / nanosPerSecond + (s.advanceTimers t1).tickFractions t2 / nanosPerSecond =
        s.tickFractions t2 / nanosPerSecond ∧
      (s.advanceTimers t1).tickFractions t2 % nanosPerSecond = s.tickFractions t2 % nanosPerSecond := by
  have hsum := tickFractions_advanceTimers h1 h2
  rw [Nat.mul_comm] at hsum
  rw [← hsum]
  exact ⟨(Nat.mul_add_div (Nat.succ_pos _) _ _).symm, (Nat.mul_add_mod ..).symm⟩

theorem advanceTimers_advanceTimers {s : State} {t1 t2 : Nat} (h1 : s.tlast ≤ t1) (h2 : t1 ≤ t2) :
    (s.advanceTimers t1).advanceTimers t2 = s.advanceTimers t2 := by
  obtain ⟨hticks, hcarry⟩ := ticks_advanceTimers h1 h2
  have hDT := countDown_countDown s.DT (s.tickFractions t1 / nanosPerSecond) _ |>.trans (congrArg _ hticks)
  have hST := countDown_countDown s.ST (s.tickFractions t1 / nanosPerSecond) _ |>.trans (congrArg _ hticks)
  rw [State.advanceTimers, hcarry, State.advanceTimers_DT, State.advanceTimers_ST, hDT, hST]
  rfl

/-- 10^9 ns at 60 ticks a second are 60 ticks and no fraction (R263). -/
theorem ticks_of_one_second {s : State} (hrate : s.cfg.tickRate = 60) (htacc : s.tacc < 1000000000) :
    s.tickFractions (s.tlast + 1000000000) / nanosPerSecond = 60 ∧
      s.tickFractions (s.tlast + 1000000000) % nanosPerSecond = s.tacc := by
  have hfractions : s.tickFractions (s.tlast + 1000000000) = s.tacc + 1000000000 * 60 := by
    rw [State.tickFractions, hrate, Nat.add_sub_cancel_left]
  rw [hfractions, nanosPerSecond]
  omega

/-- Settles O11: whole ticks and carry are quotient and remainder of fractions that add up over the stages. -/
theorem timerAdvanceHasNoDrift : Obligations.TimerAdvanceHasNoDrift := by
  refine ⟨fun _ _ _ => advanceTimers_advanceTimers, fun s hrate htacc => ?_⟩
  obtain ⟨hticks, hcarry⟩ := ticks_of_one_second hrate htacc
  rw [State.advanceTimers_DT, State.advanceTimers_ST, State.advanceTimers_tacc, hticks, hcarry, countDown_toNat,
    countDown_toNat]
  omega

end Sys2Proof.Machine
end

section
/-! ## Load, reset and the quirk write (spec/60_exceptions.md R265, R269; spec/70_reset_and_hazards.md R280 to R282) -/

namespace Sys2Proof.Machine

open Sys2Proof.Claims

/-- Settles O55: the event is the one write of the quirk record. -/
theorem quirkWriteReplacesQuirks : Obligations.QuirkWriteReplacesQuirks := fun _ _ _ hscript => step_of_script hscript

theorem State.load_of_beyond {bs : List Byte} {s : State} (h : memSize < s.cfg.loadOffset + bs.length) :
    s.load bs = { s with report := .rejected } := if_pos h

theorem State.load_of_fits {bs : List Byte} {s : State} (h : s.cfg.loadOffset + bs.length ≤ memSize) :
    s.load bs = { s with mem := s.mem.writeBytes s.cfg s.cfg.loadOffset bs, report := .nothing } :=
  if_neg (Nat.not_lt.2 h)

/-- Settles O53: the two outcomes of the range check, of which the second is a store of consecutive bytes. -/
theorem loadWritesProgramOrIsRefused : Obligations.LoadWritesProgramOrIsRefused := by
  intro s bytes rest hscript hwf
  have hstep : step s = .next ({ s with script := rest }.load bytes) := step_of_script hscript
  refine ⟨fun hbeyond => hstep.trans (congrArg _ (State.load_of_beyond hbeyond)),
    fun hfits => ⟨_, hstep.trans (congrArg _ (State.load_of_fits hfits)),
      fun t ht => ⟨fun k b hk => ?_, fun a ha => ?_⟩⟩⟩
  · obtain ⟨hlt, rfl⟩ := List.getElem?_eq_some_iff.1 hk
    rw [State.byteAt_stored hwf ht hlt, List.getD_eq_getElem _ _ hlt]
  · exact State.byteAt_outside_stored hwf ht ha

/-- A legal font has 80 bytes, so right behind it the store reads as zero again (R34, R41). -/
theorem Memory.unlisted_eq {cfg : Config} (hwf : cfg.wf = true) (a : Nat) :
    Memory.unlisted cfg a =
      if cfg.fontBase ≤ a ∧ a < cfg.fontBase + 80 then cfg.fontData.getD (a - cfg.fontBase) 0 else 0 := by
  obtain ⟨-, -, -, -, hfont, -⟩ := of_decide_eq_true hwf
  have hlen : cfg.fontData.length = 80 := hfont
  unfold Memory.unlisted
  by_cases hbase : cfg.fontBase ≤ a
  · by_cases htop : a < cfg.fontBase + 80
    · rw [if_pos hbase, if_pos ⟨hbase, htop⟩]
    · rw [if_pos hbase, if_neg (by omega), List.getD_eq_default _ _ (by omega)]
  · rw [if_neg hbase, if_neg (by omega)]

theorem loadOffset_toNat {cfg : Config} (hwf : cfg.wf = true) :
    (BitVec.ofNat 16 cfg.loadOffset).toNat = cfg.loadOffset := by
  obtain ⟨-, -, -, -, -, -, hload, -⟩ := of_decide_eq_true hwf
  have hstore : cfg.loadOffset + 2 ≤ 4096 := hload
  rw [BitVec.toNat_ofNat]; omega

theorem construct_initialValues {cfg : Config} (q : Quirks) (now : Nat) (hwf : cfg.wf = true) :
    initialValues (State.construct cfg q now) now :=
  ⟨Memory.unlisted_eq hwf, fun k => Vector.getElem_replicate k.isLt, rfl, loadOffset_toNat hwf, rfl, rfl, rfl, rfl,
    fun _ _ => rfl, fun k => Vector.getElem_replicate k.isLt, rfl, rfl, rfl, rfl⟩

/-- Settles O54: a reset gives every field of R41 the value construction gives it, and keeps the rest. -/
theorem resetSetsEveryField : Obligations.ResetSetsEveryField :=
  ⟨fun _ q now hwf => ⟨construct_initialValues q now hwf, rfl, rfl⟩,
    fun s now rest hscript hwf => ⟨({ s with script := rest } : State).resetAt now, step_of_script hscript,
      construct_initialValues s.q now hwf, rfl, rfl, rfl⟩⟩

/-- Settles O56: both bytes at the load offset are outside the font, so the step call runs the decoded word zero, which is
undefined. -/
theorem firstStepWithoutProgram : Obligations.FirstStepWithoutProgram := by
  intro cfg q now inp hwf hfont htime
  have hpc : (State.construct cfg q now).pc.toNat = cfg.loadOffset := loadOffset_toNat hwf
  obtain ⟨-, -, -, -, -, -, hinside, heven⟩ := of_decide_eq_true hwf
  have hzero (a : Nat) (ha : a = cfg.loadOffset ∨ a = cfg.loadOffset + 1) : (State.construct cfg q now).byteAt a = 0 :=
    (Memory.unlisted_eq hwf a).trans (if_neg (by omega))
  rw [← hpc] at hinside heven hzero
  have hstep := stepRunsDecodedInstruction { State.construct cfg q now with script := [.call inp] } _ inp
    (.inl ⟨[], rfl, rfl⟩) rfl htime heven hinside 0 0 (hzero _ (.inl rfl)) (hzero _ (.inr rfl))
    (.undefinedZero 0) rfl nofun
  have hnext := word_add_two_toNat (by omega : (State.construct cfg q now).pc.toNat ≤ memSize)
  rw [hpc] at hnext
  exact ⟨_, hstep, rfl, hnext, rfl⟩

end Sys2Proof.Machine
end

section
/-! ## Stores, and what is read after them (spec/20_memory.md R57, R61; spec/46_timer_pointer_memory.md R226, R236, R237) -/

namespace Sys2Proof.Machine

open Sys2Proof.Claims

/-- Settles O51: the load reads each byte where the dump has stored it. -/
theorem loadUndoesDump : Obligations.LoadUndoesDump := by
  intro x s t vs hwf hfits hdump
  obtain ⟨-, hdumps, -⟩ := registerDumpStoresRegisters x s hwf
  obtain ⟨m, p, hexec, -, hbytes⟩ := hdumps hfits
  obtain ⟨hstored, -⟩ := hbytes _ rfl
  cases hexec.symm.trans hdump
  obtain ⟨-, hloads, -⟩ := registerLoadReadsBytes x { s with mem := m, I := s.I, V := vs, report := .ok }
  obtain ⟨vs', p', hload, -, hregs⟩ := hloads hfits
  refine ⟨_, hload, fun k => (hregs k).trans ?_⟩
  split
  next hk => exact hstored k hk
  next => rfl

/-- A store that keeps `pc` is seen by the next fetch: each of its two bytes is the stored one or the one before (R57, R61). -/
theorem fetchesNext_of_stored {i : Instr} {s t : State} {bs : List Byte} {value : Nat → Nat} (hwf : Memory.wf s.cfg s.mem)
    (heven : s.pc.toNat % 2 = 0) (hinside : s.pc.toNat + 2 ≤ 4096) (hexec : exec i s = .next t) (hpc : t.pc = s.pc)
    (hcfg : t.cfg = s.cfg) (hmem : t.mem = s.mem.writeBytes s.cfg s.I.toNat bs)
    (hvalue : ∀ k < bs.length, (bs.getD k 0).toNat = value k) : fetchesNext i s (overlaid s bs.length value) := by
  have hbyte (a : Nat) : (t.byteAt a).toNat = overlaid s bs.length value a := by
    rw [State.byteAt, hcfg, hmem, Memory.read_writeBytes bs _ hwf.1, overlaid]
    split
    next hcovered => exact hvalue _ (by omega)
    next => rfl
  have hfetch := State.fetch_of_inside (s := t) (by rwa [hpc]) (by rwa [hpc])
  refine ⟨t, _, hexec, hpc, hfetch, ?_⟩
  rw [wordOfBytes_toNat, hbyte, hbyte, hpc]

theorem registersUpTo_getD_eq (x : RegIdx) (s : State) {k : Nat} (hk : k < x.val + 1) :
    (registersUpTo x s).getD k 0 = s.V.toList.getD k 0 := by
  simp only [registersUpTo, List.getD, List.getElem?_take, if_pos hk]

/-- The digits, hundreds first, by the power of ten of their place. -/
theorem decimalDigits_getD_toNat_eq (v : Byte) {k : Nat} (hk : k < 3) :
    ((decimalDigits v).getD k 0).toNat = v.toNat / 10 ^ (2 - k) % 10 := by
  obtain ⟨hhundreds, htens, hunits⟩ := decimalDigits_getD_toNat v
  have hplaces : k = 0 ∨ k = 1 ∨ k = 2 := by omega
  rcases hplaces with rfl | rfl | rfl
  · rw [hhundreds]; omega
  · exact htens
  · rw [hunits]; omega

/-- Settles O52: both instructions store their bytes at `I` and keep `pc`. -/
theorem storeIsSeenByNextFetch : Obligations.StoreIsSeenByNextFetch := by
  refine fun x s hwf heven hinside => ⟨fun hfits => ?_, fun hfits => ?_⟩
  · have hdumped := fetchesNext_of_stored hwf heven hinside (exec_registerDump_of_fits hfits)
      (State.stepPointer_pc ..) (State.stepPointer_cfg ..) (State.stepPointer_mem ..)
      fun k hk => congrArg BitVec.toNat (registersUpTo_getD_eq x s (by rwa [registersUpTo_length] at hk))
    rwa [registersUpTo_length] at hdumped
  · have hsplit := fetchesNext_of_stored hwf heven hinside (exec_splitNumber_of_fits x hfits) rfl rfl rfl
      fun k hk => decimalDigits_getD_toNat_eq s.V[x] hk
    rwa [decimalDigits_length] at hsplit

end Sys2Proof.Machine
end

section
/-! ## The pixels a sprite lands on (spec/44_display.md R183 to R187) -/

namespace Sys2Proof.Machine

open Sys2Proof.Claims

theorem pixelIndex_mod {cfg : Config} {x y : Nat} (hx : x < cfg.width) : pixelIndex cfg x y % cfg.width = x := by
  rw [pixelIndex, Nat.mul_add_mod', Nat.mod_eq_of_lt hx]

theorem pixelIndex_div {cfg : Config} {x y : Nat} (hx : x < cfg.width) : pixelIndex cfg x y / cfg.width = y := by
  rw [pixelIndex, Nat.mul_comm, Nat.mul_add_div (by omega), Nat.div_eq_of_lt hx, Nat.add_zero]

theorem pixelIndex_inj {cfg : Config} {x y x' y' : Nat} (hx : x < cfg.width) (hx' : x' < cfg.width) :
    pixelIndex cfg x y = pixelIndex cfg x' y' ↔ x = x' ∧ y = y' := by
  constructor
  · intro h
    exact ⟨(pixelIndex_mod hx).symm.trans (h ▸ pixelIndex_mod hx'),
      (pixelIndex_div hx).symm.trans (h ▸ pixelIndex_div hx')⟩
  · rintro ⟨rfl, rfl⟩
    rfl

/-- Every element of the grid is a pixel of it. -/
theorem exists_pixelIndex_eq {cfg : Config} {j : Nat} (hj : j < cfg.width * cfg.height) :
    ∃ px py, px < cfg.width ∧ py < cfg.height ∧ pixelIndex cfg px py = j :=
  have hwidth : 0 < cfg.width := Nat.pos_of_mul_pos_right (Nat.zero_lt_of_lt hj)
  ⟨j % cfg.width, j / cfg.width, Nat.mod_lt _ hwidth, Nat.div_lt_of_lt_mul hj, Nat.div_add_mod' ..⟩

/-- A candidate pixel lands on a pixel of the grid when its coordinates are that pixel's, modulo the grid where it wraps
(R186). -/
theorem pixelTarget_eq_some_iff {cfg : Config} (q : Quirks) (cx cy : Nat) {px py : Nat} (hpx : px < cfg.width)
    (hpy : py < cfg.height) :
    pixelTarget cfg q cx cy = some (pixelIndex cfg px py) ↔
      if q.partialWrap then cx = px ∧ cy = py else cx % cfg.width = px ∧ cy % cfg.height = py := by
  unfold pixelTarget
  split
  next =>
    split
    next hclipped => simp; omega
    next hinside => rw [Option.some_inj, pixelIndex_inj (by omega) hpx]
  next => rw [Option.some_inj, pixelIndex_inj (Nat.mod_lt _ (by omega)) hpx]

/-! ### Counting the flips of an element -/

/-- A sprite flips an element as often as its rows do. -/
theorem spriteTargets_count (cfg : Config) (q : Quirks) (x0 cy k : Nat) (rows : List Byte) :
    (spriteTargets cfg q x0 cy rows).count k =
      ((List.range rows.length).map fun r => (rowTargets cfg q x0 (cy + r) (rows.getD r 0)).count k).sum := by
  induction rows generalizing cy with
  | nil => rfl
  | cons row rows ih =>
    rw [spriteTargets, List.count_append, ih, List.length_cons, List.range_succ_eq_map, List.map_cons, List.map_map,
      List.sum_cons]
    simp [Function.comp_def, Nat.add_assoc, Nat.add_comm 1]

/-- A row flips an element once for each of its set bits that has it as target. -/
theorem rowTargets_count (cfg : Config) (q : Quirks) (x0 cy k : Nat) (row : Byte) :
    (rowTargets cfg q x0 cy row).count k =
      (List.range 8).countP fun c => spriteBit row c && pixelTarget cfg q (x0 + c) cy == some k := by
  rw [rowTargets, List.count, List.countP_filterMap]
  refine List.countP_congr fun c _ => ?_
  cases spriteBit row c <;> cases pixelTarget cfg q (x0 + c) cy <;> simp

/-- The claims' count of hits is the count of flips. -/
theorem spriteHits_eq_count (s : State) (x0 y0 n : Nat) {px py : Nat} (hpx : px < s.cfg.width) (hpy : py < s.cfg.height) :
    spriteHits s x0 y0 n px py =
      (spriteTargets s.cfg s.q x0 y0 (s.mem.readBytes s.cfg s.I.toNat n)).count (pixelIndex s.cfg px py) := by
  rw [spriteTargets_count, Memory.readBytes_length, spriteHits]
  refine congrArg List.sum (List.map_congr_left fun r hr => ?_)
  rw [Memory.readBytes_getD _ _ _ (List.mem_range.1 hr), rowTargets_count]
  refine List.countP_congr fun c _ => ?_
  simp only [spriteBitLands, spriteBit, State.byteAt, Bool.and_eq_true, beq_iff_eq, pixelTarget_eq_some_iff s.q _ _ hpx hpy]
  cases s.q.partialWrap <;> simp

end Sys2Proof.Machine
end

section
/-! ## Draw, once and twice (spec/44_display.md R187 to R189) -/

namespace Sys2Proof.Machine

open Sys2Proof.Claims

theorem pixel_false_iff (fb : Framebuffer) (k : Nat) : fb.lit k = false ↔ k ∉ fb := by
  rw [← Bool.not_eq_true, Framebuffer.lit_iff]

theorem flagByte_eq_one_iff (c : Bool) : flagByte c = 1 ↔ c = true := by cases c <;> decide

theorem flagByte_cases (c : Bool) : flagByte c = 0 ∨ flagByte c = 1 := by cases c <;> decide

/-- A sprite collides exactly where a pixel is flipped that was lit, or is flipped twice. -/
theorem drawSprite_collides {cfg : Config} (q : Quirks) (x0 y0 : Nat) (rows : List Byte) {fb : Framebuffer}
    (hw : 0 < cfg.width) (hh : 0 < cfg.height) (hfb : Framebuffer.wf cfg fb) :
    (drawSprite cfg q x0 y0 rows fb).2 = true ↔
      ∃ px py, px < cfg.width ∧ py < cfg.height ∧
        ((fb.lit (pixelIndex cfg px py) = true ∧ 1 ≤ (spriteTargets cfg q x0 y0 rows).count (pixelIndex cfg px py)) ∨
          2 ≤ (spriteTargets cfg q x0 y0 rows).count (pixelIndex cfg px py)) := by
  rw [drawSprite_eq, flipAll_collides _ hfb.1]
  simp only [Framebuffer.lit_iff, Bool.false_eq_true, false_or]
  constructor
  · rintro ⟨j, hj⟩
    have hcount : 1 ≤ (spriteTargets cfg q x0 y0 rows).count j := by omega
    obtain ⟨px, py, hpx, hpy, rfl⟩ := exists_pixelIndex_eq (spriteTargets_lt hw hh (List.count_pos_iff.1 hcount))
    exact ⟨px, py, hpx, hpy, hj⟩
  · rintro ⟨px, py, -, -, hj⟩
    exact ⟨_, hj⟩

/-- Settles O37: a Draw flips the targets of its sprite, of which as many are a pixel as set bits land on it. -/
theorem drawFlipsCoveredPixels : Obligations.DrawFlipsCoveredPixels := by
  rintro x y n s hwf hfb hfits hits rfl
  obtain ⟨hw, -, hh, -⟩ := of_decide_eq_true hwf
  refine ⟨_, _, exec_draw_of_fits x y hfits, fun px py hpx hpy => ?_, flagByte_cases _, ?_⟩
  · rw [spriteHits_eq_count s _ _ _ hpx hpy, State.pixel, State.pixel, pixel_false_iff, Framebuffer.lit_iff,
      Framebuffer.lit_iff, drawSprite_eq]
    exact mem_flipAll _ hfb.1 _
  · rw [flagByte_eq_one_iff, drawSprite_collides s.q _ _ _ hw hh hfb]
    refine exists_congr fun px => exists_congr fun py => and_congr_right fun hpx => and_congr_right fun hpy => ?_
    rw [spriteHits_eq_count s _ _ _ hpx hpy]
    rfl

/-- The same sprite drawn twice at one place flips every element an even number of times (R187). -/
theorem drawSprite_drawSprite (cfg : Config) (q : Quirks) (x0 y0 : Nat) (rows : List Byte) {fb : Framebuffer}
    (hfb : fb.Pairwise (· < ·)) : (drawSprite cfg q x0 y0 rows (drawSprite cfg q x0 y0 rows fb).1).1 = fb := by
  have honce : (drawSprite cfg q x0 y0 rows fb).1.Pairwise (· < ·) := by
    rw [drawSprite_eq]; exact flipAll_sorted _ hfb
  rw [drawSprite_eq _ _ _ _ _ (drawSprite _ _ _ _ _ _).1]
  refine Framebuffer.ext_of_mem (flipAll_sorted _ honce) hfb fun k => ?_
  rw [mem_flipAll _ (acc := (_, false)) honce, drawSprite_eq, mem_flipAll _ hfb]
  grind

/-- The framebuffer after a Draw that has recorded no fault. -/
theorem exec_draw_FB {x y : RegIdx} {n : Fin 16} {s t : State} (h : exec (.draw x y n) s = .next t)
    (hfault : t.fault = none) :
    t.FB = (drawSprite s.cfg s.q (startColumn s.cfg (s.reg x)) (startRow s.cfg (s.reg y))
      (s.mem.readBytes s.cfg s.I.toNat n.val) s.FB).1 := by
  by_cases hfits : n.val = 0 ∨ s.I.toNat + n.val ≤ memSize
  · cases (exec_draw_of_fits x y hfits).symm.trans h
    rfl
  · cases (exec_draw_of_beyond x y (by omega) (by omega)).symm.trans h
    cases hfault

/-- Settles O40: the first Draw leaves what the second reads, the coordinates among it as they are not in `VF`. -/
theorem drawTwiceRestoresFramebuffer : Obligations.DrawTwiceRestoresFramebuffer := by
  intro x y n s t u _ hfb hx hy ht hu hfirst hsecond
  have he := effect_of_exec hfirst
  have hframe := exec_framed _ s t hfirst
  have hV (k : RegIdx) (hk : k ≠ VF) : t.reg k = s.reg k := he.reg_of_not_mayWrite hk
  have hI : t.I = s.I := by_contra he.mayMovePointer_of_ne
  have hmem : t.mem = s.mem := by_contra fun hne => by simpa using he.of_mem_ne hne
  rw [exec_draw_FB hsecond hu, hframe.cfg, hframe.q, hV x hx, hV y hy, hI, hmem, exec_draw_FB hfirst ht]
  exact drawSprite_drawSprite s.cfg s.q _ _ _ hfb.1

end Sys2Proof.Machine
end
